-- ==== Sys2Proof/Word.lean ====
section
/-! DEFINITION. The word, byte and register-selector types. -/

namespace Sys2Proof

/-- One byte of the code stream (R4). -/
abbrev Byte := BitVec 8

/-- A register or data-memory cell value: `n` bits (R10, R16), where `n` is the parameter `N` of R3. -/
abbrev Word (n : Nat) := BitVec n

/-- A register selector: 3 bits, so it always names one of the 8 registers (R10). -/
abbrev Reg := Fin 8

end Sys2Proof
end

