-- ==== Sys2Proof/Config.lean ====
section
/-! DEFINITION. What an implementation fixes: the word width `N` (R3), and the sizes R5 fixes. -/

namespace Sys2Proof

/-- The parameters of one machine. `N` is the width of every register, every data-memory cell and the shifter;
R3 leaves it open under the constraint `N >= 14`, so that `Load`'s 14-bit constant always fits. -/
structure Config where
  N : Nat
  wide : 14 ≤ N
deriving DecidableEq, Repr

/-- The default of R3 and decision D1: `N = 32` (log entry 1). -/
def Config.standard : Config := ⟨32, by decide⟩

/-- MEM_CELLS of R5: the data memory has the cells 0 to 65535. -/
abbrev memCells : Nat := 65536

end Sys2Proof
end

