-- ==== Sys2Proof/Syntax.lean ====
section
/-! DEFINITION. The instructions: a closed sum of four variants (R2, R50), operands in the declared field order. -/

namespace Sys2Proof

/-- A decoded instruction. Each operand has the width the Field Layout Table gives it (R50), so every term is in
range, as every decoded instruction is (R57). -/
inductive Instr where
  /-- `Load(const, reg)`: a 14-bit constant into a register (R90). -/
  | load (const : BitVec 14) (reg : Reg)
  /-- `Read(src, dst)`: the cell that `x[src]` addresses into `x[dst]` (R95). -/
  | read (src dst : Reg)
  /-- `Write(src, offset, dst)`: `x[src]` into the cell at `x[dst] + offset` (R96). -/
  | write (src : Reg) (offset : BitVec 6) (dst : Reg)
  /-- `Shr(src, dst)`: `x[dst]` shifted right by `x[src]` (R105). -/
  | shr (src dst : Reg)
deriving DecidableEq, Repr

end Sys2Proof
end

