-- ==== Sys2Proof/WellFormed.lean ====
section
/-! DEFINITION. Operand ranges (R50, R66). The toolchain writes operands as plain numbers; the check below is the
upstream validation R66 calls mandatory, and its error is the `InvalidOperandRange` of R120 and R124. A term of `Instr`
is what has passed it. -/

namespace Sys2Proof

/-- An instruction as the notation of R64 writes it: decimal operands of any size, in declared field order. -/
inductive RawInstr where
  | load (const reg : Nat)
  | read (src dst : Nat)
  | write (src offset dst : Nat)
  | shr (src dst : Nat)
deriving DecidableEq, Repr

/-- The toolchain's error of R124. The CORE never raises it. -/
inductive OperandError where
  | invalidOperandRange
deriving DecidableEq, Repr

/-- Every operand lies in its declared range: `const` in 0..16383, `offset` in 0..63, every selector in 0..7 (R50). -/
def RawInstr.wellFormed : RawInstr → Bool
  | .load const reg => decide (const < 16384) && decide (reg < 8)
  | .read src dst => decide (src < 8) && decide (dst < 8)
  | .write src offset dst => decide (src < 8) && decide (offset < 64) && decide (dst < 8)
  | .shr src dst => decide (src < 8) && decide (dst < 8)

/-- The operands of an instruction as plain numbers. -/
def Instr.toRaw : Instr → RawInstr
  | .load const reg => .load const.toNat reg.val
  | .read src dst => .read src.val dst.val
  | .write src offset dst => .write src.val offset.toNat dst.val
  | .shr src dst => .shr src.val dst.val

/-- Upstream validation: an instruction with every operand as written, or the error. Out-of-range operands are refused
and never wrapped (R66, U1). -/
def RawInstr.check : RawInstr → Except OperandError Instr
  | .load const reg =>
    if h : const < 16384 ∧ reg < 8 then .ok (.load (BitVec.ofNatLT const h.1) ⟨reg, h.2⟩)
    else .error .invalidOperandRange
  | .read src dst =>
    if h : src < 8 ∧ dst < 8 then .ok (.read ⟨src, h.1⟩ ⟨dst, h.2⟩) else .error .invalidOperandRange
  | .write src offset dst =>
    if h : src < 8 ∧ offset < 64 ∧ dst < 8 then
      .ok (.write ⟨src, h.1⟩ (BitVec.ofNatLT offset h.2.1) ⟨dst, h.2.2⟩)
    else .error .invalidOperandRange
  | .shr src dst =>
    if h : src < 8 ∧ dst < 8 then .ok (.shr ⟨src, h.1⟩ ⟨dst, h.2⟩) else .error .invalidOperandRange

/-- The operand ranges of R50 on an instruction; the operand types make it hold of every term. -/
def Instr.wellFormed (i : Instr) : Bool := i.toRaw.wellFormed

end Sys2Proof
end

