-- ==== Sys2Proof/Decode.lean ====
section
/-! DEFINITION. The Field Layout Table (R50), and the decoder (R57, R70 to R72) and encoder (R56), which both read
every opcode, width, position and length from that one table. -/

namespace Sys2Proof

/-- The four instruction variants the demultiplexer selects (R58). -/
inductive Variant where
  | load | read | write | shr
deriving DecidableEq, Repr

/-- The operand field names of the Field Layout Table (R50). -/
inductive Field where
  | const | reg | src | offset | dst
deriving DecidableEq, Repr

/-- The two decode failures (R120). -/
inductive DecodeFailure where
  /-- The low 7 bits of the first byte match no entry of the table (R121). -/
  | unknownOpcode
  /-- Fewer bytes remain than the recognised record needs (R122). -/
  | truncated
deriving DecidableEq, Repr

/-! ### The Field Layout Table (R50) -/

/-- The value of the 7-bit opcode field `A` (R50). -/
def Variant.opcode : Variant → Nat
  | .load => 90
  | .read => 43
  | .write => 64
  | .shr => 0

/-- The operand fields after `A`, each with its width, in declared order (R50). -/
def Variant.operands : Variant → List (Field × Nat)
  | .load => [(.const, 14), (.reg, 3)]
  | .read => [(.src, 3), (.dst, 3)]
  | .write => [(.src, 3), (.offset, 6), (.dst, 3)]
  | .shr => [(.src, 3), (.dst, 3)]

/-- `total_bit_width`: 7 for the opcode plus the operand widths (R51). -/
def Variant.totalBits (v : Variant) : Nat := 7 + (v.operands.map Prod.snd).sum

/-- The record length `L` in bytes: the total width divided by 8, rounded up (R51). -/
def Variant.length (v : Variant) : Nat := (v.totalBits + 7) / 8

/-- The rows of the table. -/
def Variant.all : List Variant := [.load, .read, .write, .shr]

/-- The demultiplexer: the row whose opcode is `a`, if there is one (R58). -/
def Variant.ofOpcode (a : Nat) : Option Variant := Variant.all.find? fun v => v.opcode == a

/-- The lowest record bit and the width of field `f` in a run of fields that starts at record bit `lo`. -/
def fieldSpan : List (Field × Nat) → Field → Nat → Nat × Nat
  | [], _, lo => (lo, 0)
  | (g, w) :: fs, f, lo => if g = f then (lo, w) else fieldSpan fs f (lo + w)

/-- Where a field stands in a record: operands follow the 7 opcode bits without a gap, in declared order (R52). -/
def Variant.span (v : Variant) (f : Field) : Nat × Nat := fieldSpan v.operands f 7

/-- A field's value moved to its place in the record (R56). -/
def Variant.place (v : Variant) (f : Field) (value : Nat) : Nat := value * 2 ^ (v.span f).1

/-- The bit-field extractor: the field cut out of the record by shift and mask (R57). -/
def Variant.extract (v : Variant) (f : Field) (acc : Nat) : Nat :=
  acc / 2 ^ (v.span f).1 % 2 ^ (v.span f).2

/-! ### Byte order (R33, R52) -/

/-- The record accumulator of a byte sequence, lowest-order byte first. -/
def accumulate : List Byte → Nat
  | [] => 0
  | b :: bs => b.toNat + 256 * accumulate bs

/-- The low `n` bytes of an accumulator, lowest-order byte first. -/
def littleEndian : Nat → Nat → List Byte
  | 0, _ => []
  | n + 1, acc => BitVec.ofNat 8 acc :: littleEndian n (acc / 256)

/-! ### Decoder -/

/-- The 7-bit opcode field of a record's first byte; bit 7 is no part of it (R58, R70). -/
def opcodeField (b0 : Byte) : Nat := b0.toNat % 128

/-- The instruction of a variant whose record has the accumulator `acc` (R57). Padding bits are not looked at (R60,
log entry 6). -/
def Variant.build (acc : Nat) : Variant → Instr
  | .load => .load (BitVec.ofNat 14 (Variant.load.extract .const acc)) (Fin.ofNat 8 (Variant.load.extract .reg acc))
  | .read => .read (Fin.ofNat 8 (Variant.read.extract .src acc)) (Fin.ofNat 8 (Variant.read.extract .dst acc))
  | .write =>
    .write (Fin.ofNat 8 (Variant.write.extract .src acc)) (BitVec.ofNat 6 (Variant.write.extract .offset acc))
      (Fin.ofNat 8 (Variant.write.extract .dst acc))
  | .shr => .shr (Fin.ofNat 8 (Variant.shr.extract .src acc)) (Fin.ofNat 8 (Variant.shr.extract .dst acc))

/-- The decoder (R70 to R72) on the bytes from the cursor to the end of the stream: the first byte `b0`, which the
engine guarantees to exist (R70), and the `rest`. It answers the instruction and the bytes consumed, or one of the two
failures; the opcode is looked up before the length is tested (R125). -/
def decode (b0 : Byte) (rest : List Byte) : Except DecodeFailure (Instr × Nat) :=
  match Variant.ofOpcode (opcodeField b0) with
  | none => .error .unknownOpcode
  | some v =>
    if rest.length + 1 < v.length then .error .truncated
    else .ok (v.build (accumulate ((b0 :: rest).take v.length)), v.length)

/-! ### Encoder -/

/-- The variant of an instruction. -/
def Instr.variant : Instr → Variant
  | .load _ _ => .load
  | .read _ _ => .read
  | .write _ _ _ => .write
  | .shr _ _ => .shr

/-- The record length of an instruction (R51). -/
def Instr.length (i : Instr) : Nat := i.variant.length

/-- The record accumulator the encoder builds (R56). The fields do not overlap, so the sum is the bitwise or of R56;
padding bits are 0. -/
def Instr.accumulator : Instr → Nat
  | .load const reg =>
    Variant.load.opcode + Variant.load.place .const const.toNat + Variant.load.place .reg reg.val
  | .read src dst => Variant.read.opcode + Variant.read.place .src src.val + Variant.read.place .dst dst.val
  | .write src offset dst =>
    Variant.write.opcode + Variant.write.place .src src.val + Variant.write.place .offset offset.toNat
      + Variant.write.place .dst dst.val
  | .shr src dst => Variant.shr.opcode + Variant.shr.place .src src.val + Variant.shr.place .dst dst.val

/-- The encoder (R56): the `L` bytes of the record, lowest-order byte first. Operands are in range by their types
(R66). -/
def encode (i : Instr) : List Byte := littleEndian i.length i.accumulator

/-- Encoding from plain operands: refused when one is out of range, with no wrapped result defined (R66, U1). -/
def encodeRaw (r : RawInstr) : Except OperandError (List Byte) :=
  match r.check with
  | .ok i => .ok (encode i)
  | .error e => .error e

/-- A program's code stream: the records back to back, nothing between (R61, R64). -/
def encodeProgram (is : List Instr) : List Byte := (is.map encode).flatten

/-! ### The host's numbering -/

/-- The three code bytes of a table word: `nbits` bits of `w`, every bit above them 0. -/
def tableBytes (nbits w : Nat) : List Byte := littleEndian 3 (w % 2 ^ nbits)

/-- The instruction the decoder reads from a table word laid out as the code stream stores it. -/
def decodeTableWord (nbits w : Nat) : Option Instr :=
  match tableBytes nbits w with
  | [] => none
  | b0 :: rest =>
    match decode b0 rest with
    | .ok (i, _) => some i
    | .error _ => none

end Sys2Proof
end

