-- ==== Sys2Proof/Machine/State.lean ====
section
/-! DEFINITION. The state (R20), the reasons a step can stop, and reset (R21, R140). -/

namespace Sys2Proof.Machine

/-- The data memory (R16) as the cells that do not hold 0: pairs of cell address and value, addresses strictly rising.
A cell that is not listed holds 0, the reset value (R21, R32; log entry 9). -/
abbrev Memory (n : Nat) := List (Nat × Word n)

/-- The halt record (R14): why and at which byte offset the decoder failed. -/
structure HaltRecord where
  reason : DecodeFailure
  offset : Nat
deriving DecidableEq, Repr

/-- The machine. `x`, `pc`, `mem`, `icount` and `halt` are the mutable state of R20. `cfg` and `code` are the parameters
`N` (R3) and `Code` (R4, R17) the machine was built with: no step changes them, and they stand here because the host's
step takes the state alone (log entries 1 and 2). -/
structure State where
  /-- The word width `N` (R3). -/
  cfg : Config
  /-- The code stream `Code`; `CODE_LEN` is its length (R4, R17). -/
  code : List Byte
  /-- The registers `x[0]` to `x[7]` (R10). -/
  x : Vector (Word cfg.N) 8
  /-- The program counter, a byte offset into the code stream (R12). -/
  pc : Nat
  /-- The data memory (R16). -/
  mem : Memory cfg.N
  /-- The instruction counter (R13). -/
  icount : Nat
  /-- The halt record (R14): `none` until a decode failure. -/
  halt : Option HaltRecord
deriving DecidableEq, Repr

/-- Why `step` has no next state. Both are terminal states, in which no step is enabled (R74, U9; log entry 3). -/
inductive Fault where
  /-- Raised by `step` when the run has ended at the end of the code stream (R15, R74). Safe: the machine takes no step
  here either. -/
  | completed
  /-- Raised by `step` after a decode failure has been recorded (R15, R74, R127). Safe: the machine takes no step here
  either. -/
  | halted (reason : DecodeFailure)
deriving DecidableEq, Repr

/-- Why an instruction has no meaning. -/
inductive Refusal where
  /-- Raised by `exec` for an instruction without a meaning; safe. No instruction of this model is left without one. -/
  | notModelled (mnemonic : String)
deriving DecidableEq, Repr

/-- Reset, which is construction of the engine (R140): the parameters are bound and every piece of state takes the value
of R21. -/
def State.construct (cfg : Config) (code : List Byte) : State where
  cfg := cfg
  code := code
  x := Vector.replicate 8 0
  pc := 0
  mem := []
  icount := 0
  halt := none

/-- The machine right after reset with nothing supplied: the default width and the empty code stream (R4 allows
`CODE_LEN` = 0; log entries 1 and 2). -/
def State.reset : State := State.construct Config.standard []

end Sys2Proof.Machine
end

