-- ==== Sys2Proof/Machine/Ops.lean ====
section
/-! DEFINITION. The named operations over registers, data memory, program counter and halt record, and the ALU's shift. -/

namespace Sys2Proof.Machine

/-! ### Registers (R10) -/

/-- A register read returns all `N` bits; no register is hardwired (R10). -/
def State.reg (s : State) (r : Reg) : Word s.cfg.N := s.x[r]

/-- The value of a register as an unsigned integer, `0` to `2^N - 1` (R10; 00_scope.md section 5). -/
def State.regVal (s : State) (r : Reg) : Nat := (s.reg r).toNat

/-- A register write replaces all `N` bits of that register (R10). -/
def State.setReg (s : State) (r : Reg) (v : Word s.cfg.N) : State := { s with x := s.x.set r v }

/-! ### Data memory (R16, R32) -/

/-- `InRange(addr)` of R31; the lower bound holds of every natural number. -/
def inRange (addr : Nat) : Bool := decide (0 ≤ addr) && decide (addr < memCells)

/-- The value of cell `a`: the listed one, or 0 when none is listed (R32). -/
def Memory.read {n : Nat} : Memory n → Nat → Word n
  | [], _ => 0
  | (b, w) :: m, a => if b = a then w else Memory.read m a

/-- Every listing of cell `a` removed. -/
def Memory.erase {n : Nat} (m : Memory n) (a : Nat) : Memory n := m.filter fun c => c.1 != a

/-- Cell `a` listed before the first higher address. -/
def Memory.insert {n : Nat} : Memory n → Nat → Word n → Memory n
  | [], a, v => [(a, v)]
  | (b, w) :: m, a, v => if a < b then (a, v) :: (b, w) :: m else (b, w) :: Memory.insert m a v

/-- Cell `a` becomes `v` and every other cell is unchanged (R32). A cell that holds 0 is not listed. -/
def Memory.write {n : Nat} (m : Memory n) (a : Nat) (v : Word n) : Memory n :=
  if v = 0 then m.erase a else (m.erase a).insert a v

/-- The canonical form: addresses strictly rising, every listed cell exists and holds something other than 0. -/
abbrev Memory.wf {n : Nat} (m : Memory n) : Prop :=
  m.Pairwise (fun c d => c.1 < d.1) ∧ ∀ c ∈ m, c.1 < memCells ∧ c.2 ≠ 0

/-- `MemRead(addr, 1)` (R32). -/
def State.memRead (s : State) (a : Nat) : Word s.cfg.N := s.mem.read a

/-- The value of a cell as an unsigned integer (R16). -/
def State.cellVal (s : State) (a : Nat) : Nat := (s.memRead a).toNat

/-- `MemWrite(addr, 1, v)` (R32). -/
def State.memWrite (s : State) (a : Nat) (v : Word s.cfg.N) : State := { s with mem := s.mem.write a v }

/-! ### The ALU (R106) -/

/-- `shr_N(v, s)`: the floor of `v / 2^s` for `s < N`, and 0 for every amount of `N` or more. The amount is never
reduced modulo the width (R106). -/
def shrN {n : Nat} (v : Word n) (s : Nat) : Word n := if s < n then BitVec.ofNat n (v.toNat / 2 ^ s) else 0

/-! ### Completing an instruction, and halting -/

/-- What every successfully executed instruction does to the program counter and the instruction counter, `l` being
its own record length (R73, R75, R131). The spec's order of these writes cannot be observed (D12; log entry 8). -/
def State.retire (s : State) (l : Nat) : State := { s with pc := s.pc + l, icount := s.icount + 1 }

/-- Halt entry (R126), this machine's taking of an exception: the record is written with the reason and the offset of the
failing record, and nothing else changes. There is no return from it but reset (R127), so no operation undoes it. -/
def State.takeHalt (s : State) (reason : DecodeFailure) : State := { s with halt := some ⟨reason, s.pc⟩ }

/-! ### Fetch (R70 to R72) -/

/-- The code bytes from the program counter to the end of the stream; their number is `CODE_LEN - pc` (R71). -/
def State.fetch (s : State) : List Byte := s.code.drop s.pc

/-- The same machine with `bytes` standing in its code stream from the program counter on, in place of as many bytes, and
ready to step. A stream that ends before the program counter is filled up to it with zero bytes (log entry 15). -/
def State.placeRecord (s : State) (bytes : List Byte) : State :=
  { s with
    code := s.code.take s.pc ++ List.replicate (s.pc - s.code.length) 0 ++ bytes ++ s.code.drop (s.pc + bytes.length)
    halt := none }

end Sys2Proof.Machine
end

