-- ==== Sys2Proof/Machine/Operands.lean ====
section
/-! DEFINITION. Every operand form: the immediate constant, the two data addresses, the shift amount. All values are
unsigned, and sums are those of the natural numbers (00_scope.md section 5). -/

namespace Sys2Proof.Machine

/-- `zext_N(const)`: `Load`'s constant as a word, its high bits 0 (R57, R90). -/
def immediate (s : State) (const : BitVec 14) : Word s.cfg.N := const.setWidth s.cfg.N

/-- `Read`'s data address: the whole value of `x[src]`, not masked (R95). -/
def readAddress (s : State) (src : Reg) : Nat := s.regVal src

/-- `Write`'s data address: `x[dst] + offset` as a natural number, not reduced modulo `2^N` (R31, R96, D2; log entry 4). -/
def writeAddress (s : State) (offset : BitVec 6) (dst : Reg) : Nat := s.regVal dst + offset.toNat

/-- `Shr`'s shift amount: the whole value of `x[src]` (R105, R106). -/
def shiftAmount (s : State) (src : Reg) : Nat := s.regVal src

end Sys2Proof.Machine
end

