-- ==== Sys2Proof/Machine/LoadImmediate.lean ====
section
/-! DEFINITION. The load-immediate family: `Load` (41_load_immediate.md). -/

namespace Sys2Proof.Machine

/-- `Load(const, reg)` (R90). Despite its name it does not touch the data memory. -/
def execLoad (const : BitVec 14) (reg : Reg) (s : State) : Host.Outcome State Fault Refusal :=
  .next ((s.setReg reg (immediate s const)).retire Variant.load.length)

end Sys2Proof.Machine
end

