-- ==== Sys2Proof/Machine/MemoryAccess.lean ====
section
/-! DEFINITION. The memory-access family: `Read` and `Write` (42_memory_access.md). An address out of range makes either
a no-op that still counts as executed (R97). -/

namespace Sys2Proof.Machine

/-- `Read(src, dst)` (R95, R97). -/
def execRead (src dst : Reg) (s : State) : Host.Outcome State Fault Refusal :=
  let addr := readAddress s src
  .next ((if inRange addr then s.setReg dst (s.memRead addr) else s).retire Variant.read.length)

/-- `Write(src, offset, dst)` (R96, R97): `dst` supplies the address and is not written. -/
def execWrite (src : Reg) (offset : BitVec 6) (dst : Reg) (s : State) : Host.Outcome State Fault Refusal :=
  let addr := writeAddress s offset dst
  .next ((if inRange addr then s.memWrite addr (s.reg src) else s).retire Variant.write.length)

end Sys2Proof.Machine
end

