-- ==== Sys2Proof/Machine/Shift.lean ====
section
/-! DEFINITION. The shift family: `Shr` (43_shift.md). -/

namespace Sys2Proof.Machine

/-- `Shr(src, dst)` (R105): the amount and the value are both read before the write (R23). -/
def execShr (src dst : Reg) (s : State) : Host.Outcome State Fault Refusal :=
  .next ((s.setReg dst (shrN (s.reg dst) (shiftAmount s src))).retire Variant.shr.length)

end Sys2Proof.Machine
end

