-- ==== Sys2Proof/Machine/Dispatch.lean ====
section
/-! DEFINITION. `Execute` of R80: the decoded variant selects exactly one meaning. -/

namespace Sys2Proof.Machine

def exec (i : Instr) (s : State) : Host.Outcome State Fault Refusal :=
  match i with
  | .load const reg => Sys2Proof.Machine.execLoad const reg s
  | .read src dst => Sys2Proof.Machine.execRead src dst s
  | .write src offset dst => Sys2Proof.Machine.execWrite src offset dst s
  | .shr src dst => Sys2Proof.Machine.execShr src dst s

end Sys2Proof.Machine
end

