-- ==== Sys2Proof/Machine/Flags.lean ====
section
/-! DEFINITION. The machine has no flags, and no instruction computes one (R18). What it has instead is the run status,
a function of the state (R15), with the numeric codes of R133. -/

namespace Sys2Proof.Machine

/-- The run status (R15). -/
inductive Status where
  | running
  | completed
  | halted (reason : DecodeFailure)
deriving DecidableEq, Repr

/-- The run status of a state (R15): a recorded halt first, then the end of the code stream. -/
def State.status (s : State) : Status :=
  match s.halt with
  | some h => .halted h.reason
  | none => if s.pc < s.code.length then .running else .completed

/-- The status code a hardware rendition reports (R133, decision D7; log entry 13). No program can observe it. -/
def Status.code : Status → Nat
  | .running => 0
  | .completed => 1
  | .halted .unknownOpcode => 2
  | .halted .truncated => 3

end Sys2Proof.Machine
end

