-- ==== Sys2Proof/Machine/Engine.lean ====
section
/-! DEFINITION. The execution engine's `step()` (R73): fetch, decode, and execute or halt. -/

namespace Sys2Proof.Machine

/-- Decode and execute at the program counter, or halt (R73). It is given the bytes from the program counter on, and is
used only while the machine is running, when there is at least one (R70); on none the run is over (R74, R125). -/
def engineRecord (s : State) : List Byte → Host.Outcome State Fault Refusal
  | [] => .fault .completed
  | b0 :: rest =>
    match decode b0 rest with
    | .ok (i, _) => exec i s
    | .error reason => .next (s.takeHalt reason)

/-- `step()` (R73, R74): enabled only while the status is running. A decode failure is a next state with the halt
recorded; a terminal state has no next state (log entry 3). -/
def engineStep (s : State) : Host.Outcome State Fault Refusal :=
  match s.status with
  | .halted reason => .fault (.halted reason)
  | .completed => .fault .completed
  | .running => engineRecord s s.fetch

end Sys2Proof.Machine
end

