-- ==== Sys2Proof/Machine/Step.lean ====
section
/-! DEFINITION. The host's step, and the host's way of placing one instruction. -/

namespace Sys2Proof.Machine

/-- One step of the machine: `step()` of R73. -/
def step (s : State) : Host.Outcome State Fault Refusal := engineStep s

/-- `s` with a table word's bytes standing where the next step fetches (log entry 15). -/
def State.withFetchWord (s : State) (nbits w : Nat) : State := s.placeRecord (tableBytes nbits w)

end Sys2Proof.Machine
end

