-- ==== Sys2Proof/Machine/Run.lean ====
section
/-! DEFINITION. `run()` (R74): steps until a terminal state. -/

namespace Sys2Proof.Machine

/-- At most `k` steps: the state in which the machine stands after them, or earlier where no step is enabled. Stopping
between two steps and going on changes nothing (R143). -/
def runFor : Nat → State → State
  | 0, s => s
  | k + 1, s =>
    match step s with
    | .next t => runFor k t
    | .fault _ => s
    | .refused _ => s

/-- `run()` of R74. A run takes at most half the remaining bytes in successful steps and one failing step more, so this
many steps reach the terminal state. -/
def run (s : State) : State := runFor ((s.code.length - s.pc) / 2 + 1) s

end Sys2Proof.Machine
end

