-- ==== Sys2Proof/Safety.lean ====
section
/-! DEFINITION. The terms claims about runs use: what a reachable state is, what a good state is, and the bound on the
values a run can produce. -/

namespace Sys2Proof.Machine

/-- The states of a run of the machine built with the width `cfg` and the code stream `code`: reset, and whatever a step
makes of one of them (R140, R143). -/
inductive Reachable (cfg : Config) (code : List Byte) : State → Prop where
  | reset : Reachable cfg code (State.construct cfg code)
  | step {s t : State} : Reachable cfg code s → Machine.step s = .next t → Reachable cfg code t

/-- What every reachable state has and every step keeps: the data memory is in canonical form (R16), the program counter
does not pass the end of the code stream (R12, R78), and a recorded halt names the offset the machine stands at, which
is one of the stream (R14, R126). -/
abbrev State.Inv (s : State) : Prop :=
  s.mem.wf ∧ s.pc ≤ s.code.length ∧ ∀ h, s.halt = some h → h.offset = s.pc ∧ s.pc < s.code.length

/-- The bound of R146: every register and every cell holds at most 16383. -/
abbrev State.Bounded (s : State) : Prop :=
  (∀ r : Reg, s.regVal r ≤ 16383) ∧ ∀ a : Nat, s.cellVal a ≤ 16383

/-- The instructions executed one after another, in order (R39, R76). -/
def execAll : List Instr → State → State
  | [], s => s
  | i :: is, s =>
    match exec i s with
    | .next t => execAll is t
    | .fault _ => s
    | .refused _ => s

/-- The register an instruction writes, if its data address (where it has one) is in range (R11). -/
def written (s : State) : Instr → Option Reg
  | .load _ reg => some reg
  | .read src dst => if s.regVal src < 65536 then some dst else none
  | .write _ _ _ => none
  | .shr _ dst => some dst

/-- The registers an instruction reads (R11). -/
def registersRead : Instr → List Reg
  | .load _ _ => []
  | .read src _ => [src]
  | .write src _ dst => [src, dst]
  | .shr src dst => [src, dst]

end Sys2Proof.Machine
end

