-- ==== Sys2Proof/Certificates/Slice0/Obligations.lean ====
section
/-! DEFINITION. The statements for the provers. Register and cell values are compared as the numbers they are (`regVal`,
`cellVal`), so that two states' values can be compared whatever word width each has. -/

open Sys2Proof Sys2Proof.Machine

/-! ### Encoding -/

/-- 30_encoding.md section 3: decoding is the exact inverse of encoding, for every instruction and every operand value,
whatever bytes follow the record, and it consumes exactly the record. -/
def Obligations.DecodeOfEncodeIsIdentity : Prop :=
  ∀ (i : Instr) (rest : List Byte), ∃ b0 tail, encode i = b0 :: tail ∧ (encode i).length = i.length ∧
    decode b0 (tail ++ rest) = .ok (i, i.length)

/-- 30_encoding.md section 3, which marks the converse as its own inference: re-encoding a decoded record gives the
record's bytes exactly when its padding bits, those above the last field, are zero. That a record with others set decodes
is its own decision D5 (log entry 6). -/
def Obligations.EncodeOfDecodeIffPaddingZero : Prop :=
  ∀ (b0 : Byte) (rest : List Byte) (i : Instr) (l : Nat), decode b0 rest = .ok (i, l) →
    (encode i = (b0 :: rest).take l ↔
      match i with
      | .load _ _ => True
      | .read _ _ => accumulate ((b0 :: rest).take l) / 2 ^ 13 = 0
      | .write _ _ _ => accumulate ((b0 :: rest).take l) / 2 ^ 19 = 0
      | .shr _ _ => accumulate ((b0 :: rest).take l) / 2 ^ 13 = 0)

/-- R51: a record's length is its total bit width in bytes, rounded up: 3, 2, 3, 2. -/
def Obligations.RecordLengths : Prop :=
  (∀ i : Instr, (encode i).length = (7 + (i.variant.operands.map Prod.snd).sum + 7) / 8) ∧
  (∀ const reg, (encode (.load const reg)).length = 3) ∧ (∀ src dst, (encode (.read src dst)).length = 2) ∧
  (∀ src offset dst, (encode (.write src offset dst)).length = 3) ∧ (∀ src dst, (encode (.shr src dst)).length = 2)

/-- R53, R54, R55: every field of the three formats, byte by byte, padding zero. -/
def Obligations.FormatsByteByByte : Prop :=
  (∀ const reg, encode (.load const reg) =
    [BitVec.ofNat 8 (const.toNat % 2 * 128 + 90), BitVec.ofNat 8 (const.toNat / 2 % 256),
      BitVec.ofNat 8 (reg.val * 32 + const.toNat / 512)]) ∧
  (∀ src dst, encode (.read src dst) =
    [BitVec.ofNat 8 (src.val % 2 * 128 + 43), BitVec.ofNat 8 (dst.val * 4 + src.val / 2)]) ∧
  (∀ src dst, encode (.shr src dst) =
    [BitVec.ofNat 8 (src.val % 2 * 128 + 0), BitVec.ofNat 8 (dst.val * 4 + src.val / 2)]) ∧
  (∀ src offset dst, encode (.write src offset dst) =
    [BitVec.ofNat 8 (src.val % 2 * 128 + 64), BitVec.ofNat 8 (offset.toNat * 4 + src.val / 2), BitVec.ofNat 8 dst.val])

/-- R56: the encoder's bitwise accumulator, its bytes lowest-order first, and no bit above the last field. -/
def Obligations.EncoderPacksFields : Prop :=
  (∀ (const : BitVec 14) (reg : Reg), let acc := 90 ||| (const.toNat <<< 7) ||| (reg.val <<< 21)
    encode (.load const reg) = [BitVec.ofNat 8 acc, BitVec.ofNat 8 (acc >>> 8), BitVec.ofNat 8 (acc >>> 16)] ∧
      acc < 2 ^ 24) ∧
  (∀ (src dst : Reg), let acc := 43 ||| (src.val <<< 7) ||| (dst.val <<< 10)
    encode (.read src dst) = [BitVec.ofNat 8 acc, BitVec.ofNat 8 (acc >>> 8)] ∧ acc < 2 ^ 13) ∧
  (∀ (src : Reg) (offset : BitVec 6) (dst : Reg),
    let acc := 64 ||| (src.val <<< 7) ||| (offset.toNat <<< 10) ||| (dst.val <<< 16)
    encode (.write src offset dst) = [BitVec.ofNat 8 acc, BitVec.ofNat 8 (acc >>> 8), BitVec.ofNat 8 (acc >>> 16)] ∧
      acc < 2 ^ 19) ∧
  (∀ (src dst : Reg), let acc := 0 ||| (src.val <<< 7) ||| (dst.val <<< 10)
    encode (.shr src dst) = [BitVec.ofNat 8 acc, BitVec.ofNat 8 (acc >>> 8)] ∧ acc < 2 ^ 13)

/-- 40_fetch_decode_execute.md section 1 and 30_encoding.md section 3: the decoder is the spec's `Decode`, written here
with the spec's own masks, shifts and order of tests, at every offset of every code stream. That no padding bit is tested
is the spec's own decision D5 (log entry 6). -/
def Obligations.DecoderIsThePseudocode : Prop :=
  ∀ (code : List Byte) (pc : Nat) (b0 : Byte), code[pc]? = some b0 →
    decode b0 (code.drop (pc + 1)) =
      (let a := b0.toNat &&& 0x7F
       let b1 := (code.getD (pc + 1) 0).toNat
       let b2 := (code.getD (pc + 2) 0).toNat
       if ¬ (a = 0 ∨ a = 43 ∨ a = 64 ∨ a = 90) then .error .unknownOpcode
       else
         let l := if a = 90 ∨ a = 64 then 3 else 2
         if code.length - pc < l then .error .truncated
         else
           let acc := b0.toNat + 256 * b1 + (if l = 3 then 65536 * b2 else 0)
           if a = 90 then
             .ok (.load (BitVec.ofNat 14 ((acc >>> 7) &&& 0x3FFF)) (Fin.ofNat 8 ((acc >>> 21) &&& 7)), 3)
           else if a = 43 then
             .ok (.read (Fin.ofNat 8 ((acc >>> 7) &&& 7)) (Fin.ofNat 8 ((acc >>> 10) &&& 7)), 2)
           else if a = 64 then
             .ok (.write (Fin.ofNat 8 ((acc >>> 7) &&& 7)) (BitVec.ofNat 6 ((acc >>> 10) &&& 0x3F))
               (Fin.ofNat 8 ((acc >>> 16) &&& 7)), 3)
           else .ok (.shr (Fin.ofNat 8 ((acc >>> 7) &&& 7)) (Fin.ofNat 8 ((acc >>> 10) &&& 7)), 2))

/-- R58: the low 7 bits of the first byte, and nothing else, select the variant; every other value is unknown; the zero
record is `Shr(0, 0)`, and an all-zero stream of even length is a sequence of them. -/
def Obligations.OpcodeSelectsVariant : Prop :=
  (∀ (b0 b1 b2 : Byte) (rest : List Byte), let a := b0.toNat % 128
    (a = 0 → ∃ src dst, decode b0 (b1 :: b2 :: rest) = .ok (.shr src dst, 2)) ∧
    (a = 43 → ∃ src dst, decode b0 (b1 :: b2 :: rest) = .ok (.read src dst, 2)) ∧
    (a = 64 → ∃ src offset dst, decode b0 (b1 :: b2 :: rest) = .ok (.write src offset dst, 3)) ∧
    (a = 90 → ∃ const reg, decode b0 (b1 :: b2 :: rest) = .ok (.load const reg, 3)) ∧
    (¬ (a = 0 ∨ a = 43 ∨ a = 64 ∨ a = 90) → decode b0 (b1 :: b2 :: rest) = .error .unknownOpcode)) ∧
  (∀ rest : List Byte, decode 0 (0 :: rest) = .ok (.shr 0 0, 2)) ∧
  (∀ k : Nat, List.replicate (2 * k) (0 : Byte) = encodeProgram (List.replicate k (.shr 0 0)))

/-- R59, R121: an opcode outside the four is `UnknownOpcode`, from the first byte alone and so also in the last byte of
the stream; the engine halts with that reason at the byte's offset and nothing else changes; no other encoding is
illegal. -/
def Obligations.UnknownOpcodeHalts : Prop :=
  (∀ (b0 : Byte) (rest : List Byte), decode b0 rest = .error .unknownOpcode ↔
    ¬ (b0.toNat % 128 = 0 ∨ b0.toNat % 128 = 43 ∨ b0.toNat % 128 = 64 ∨ b0.toNat % 128 = 90)) ∧
  (∀ (b0 b1 b2 : Byte) (rest : List Byte),
    b0.toNat % 128 = 0 ∨ b0.toNat % 128 = 43 ∨ b0.toNat % 128 = 64 ∨ b0.toNat % 128 = 90 →
      ∃ i l, decode b0 (b1 :: b2 :: rest) = .ok (i, l)) ∧
  (∀ (s : State) (b0 : Byte), s.halt = none → s.code[s.pc]? = some b0 →
    ¬ (b0.toNat % 128 = 0 ∨ b0.toNat % 128 = 43 ∨ b0.toNat % 128 = 64 ∨ b0.toNat % 128 = 90) →
      step s = .next { s with halt := some ⟨.unknownOpcode, s.pc⟩ })

/-- R71: `Truncated` exactly when one byte is left for a 2-byte record, or one or two for a 3-byte record; the engine
then stops at the record's offset. -/
def Obligations.TruncatedExactlyWhenShort : Prop :=
  (∀ (b0 : Byte) (rest : List Byte), decode b0 rest = .error .truncated ↔
    ((b0.toNat % 128 = 0 ∨ b0.toNat % 128 = 43) ∧ 1 + rest.length < 2) ∨
    ((b0.toNat % 128 = 64 ∨ b0.toNat % 128 = 90) ∧ 1 + rest.length < 3)) ∧
  (∀ (s : State) (b0 : Byte), s.halt = none → s.code[s.pc]? = some b0 →
    ((b0.toNat % 128 = 0 ∨ b0.toNat % 128 = 43) ∧ s.code.length - s.pc < 2) ∨
    ((b0.toNat % 128 = 64 ∨ b0.toNat % 128 = 90) ∧ s.code.length - s.pc < 3) →
      step s = .next { s with halt := some ⟨.truncated, s.pc⟩ })

/-- 30_encoding.md section 4 by the spec's own decision D5 (log entry 6): the padding bits, record bits 13 to 15 of
`Read` and `Shr` and 19 to 23 of `Write`, do not change what a record decodes to. -/
def Obligations.PaddingBitsAreIgnored : Prop :=
  (∀ (b0 b1 c1 : Byte) (rest : List Byte), b0.toNat % 128 = 43 ∨ b0.toNat % 128 = 0 →
    b1.toNat % 32 = c1.toNat % 32 → decode b0 (b1 :: rest) = decode b0 (c1 :: rest)) ∧
  (∀ (b0 b1 b2 c2 : Byte) (rest : List Byte), b0.toNat % 128 = 64 →
    b2.toNat % 8 = c2.toNat % 8 → decode b0 (b1 :: b2 :: rest) = decode b0 (b1 :: c2 :: rest))

/-- 95_test_vectors.md sections 1, 3 and 6: words of every family, written out from the encoding, decode to the
instruction they stand for, and a short and an unknown one to their failure. That X6, with its padding bits set, decodes
at all is the spec's own decision D5 (log entry 6). -/
def Obligations.SpecWordsDecode : Prop :=
  decode 0xDA [0x05, 0xE1] = .ok (.load 523 7, 3) ∧ decode 0x2B [0x19] = .ok (.read 2 6, 2) ∧
  decode 0xC0 [0x84, 0x02] = .ok (.write 1 33 2, 3) ∧ decode 0x00 [0x09] = .ok (.shr 2 2, 2) ∧
  decode 0xC0 [0xFF, 0xFF] = .ok (.write 7 63 7, 3) ∧ decode 0xDA [] = .error .truncated ∧
  decode 0xFF [] = .error .unknownOpcode

/-- 30_encoding.md section 3 and 60_exceptions.md section 1: upstream validation passes an instruction exactly when every
operand lies in its declared range, and then unchanged; an out-of-range one is refused and never misencoded. -/
def Obligations.OutOfRangeOperandsAreRefused : Prop :=
  (∀ const reg : Nat, (∃ i, (RawInstr.load const reg).check = .ok i) ↔ const ≤ 16383 ∧ reg ≤ 7) ∧
  (∀ src dst : Nat, (∃ i, (RawInstr.read src dst).check = .ok i) ↔ src ≤ 7 ∧ dst ≤ 7) ∧
  (∀ src offset dst : Nat, (∃ i, (RawInstr.write src offset dst).check = .ok i) ↔ src ≤ 7 ∧ offset ≤ 63 ∧ dst ≤ 7) ∧
  (∀ src dst : Nat, (∃ i, (RawInstr.shr src dst).check = .ok i) ↔ src ≤ 7 ∧ dst ≤ 7) ∧
  (∀ (r : RawInstr) (i : Instr), r.check = .ok i → i.toRaw = r ∧ encodeRaw r = .ok (encode i)) ∧
  (∀ r : RawInstr, r.wellFormed = false → encodeRaw r = .error .invalidOperandRange)

/-! ### The four instructions -/

/-- R90: `Load` completes in every state; `x[reg]` holds the constant, its high bits zero; nothing else changes but the
program counter and the instruction counter. -/
def Obligations.LoadPutsConstant : Prop :=
  ∀ (s : State) (const : BitVec 14) (reg : Reg), ∃ t, exec (.load const reg) s = .next t ∧
    t.regVal reg = const.toNat ∧ (∀ q, q ≠ reg → t.regVal q = s.regVal q) ∧
    (∀ a, t.cellVal a = s.cellVal a) ∧
    t.cfg = s.cfg ∧ t.code = s.code ∧ t.halt = s.halt ∧ t.pc = s.pc + 3 ∧ t.icount = s.icount + 1

/-- R95: `Read` completes in every state; when `x[src]` is below 65536, `x[dst]` holds the cell it addresses, and
otherwise no register changes; nothing else changes but the program counter and the instruction counter. -/
def Obligations.ReadLoadsCell : Prop :=
  ∀ (s : State) (src dst : Reg), ∃ t, exec (.read src dst) s = .next t ∧
    t.regVal dst =
      (if s.regVal src < 65536 then s.cellVal (s.regVal src) else s.regVal dst) ∧
    (∀ q, q ≠ dst → t.regVal q = s.regVal q) ∧
    (∀ a, t.cellVal a = s.cellVal a) ∧
    t.cfg = s.cfg ∧ t.code = s.code ∧ t.halt = s.halt ∧ t.pc = s.pc + 2 ∧ t.icount = s.icount + 1

/-- 42_memory_access.md with the spec's own decision D2 (log entry 4), the sum not reduced to `N` bits: `Write` completes
in every state; when the natural-number sum is below 65536, the cell there holds `x[src]`, and every other cell is
unchanged; otherwise every cell is unchanged; no register changes. -/
def Obligations.WriteStoresRegister : Prop :=
  ∀ (s : State) (src : Reg) (offset : BitVec 6) (dst : Reg), ∃ t, exec (.write src offset dst) s = .next t ∧
    (∀ a, t.cellVal a =
      if a = s.regVal dst + offset.toNat ∧ a < 65536 then s.regVal src else s.cellVal a) ∧
    (∀ q, t.regVal q = s.regVal q) ∧
    t.cfg = s.cfg ∧ t.code = s.code ∧ t.halt = s.halt ∧ t.pc = s.pc + 3 ∧ t.icount = s.icount + 1

/-- R105: `Shr` completes in every state; `x[dst]` holds its old value shifted right by the old `x[src]`, 0 for an amount
of `N` or more; nothing else changes but the program counter and the instruction counter. -/
def Obligations.ShrShiftsRight : Prop :=
  ∀ (s : State) (src dst : Reg), ∃ t, exec (.shr src dst) s = .next t ∧
    t.regVal dst =
      (if s.regVal src < s.cfg.N then s.regVal dst / 2 ^ s.regVal src else 0) ∧
    (∀ q, q ≠ dst → t.regVal q = s.regVal q) ∧
    (∀ a, t.cellVal a = s.cellVal a) ∧
    t.cfg = s.cfg ∧ t.code = s.code ∧ t.halt = s.halt ∧ t.pc = s.pc + 2 ∧ t.icount = s.icount + 1

/-- 42_memory_access.md: an access whose computed data address is outside 0 to 65535 changes the program counter and the
instruction counter, as for an in-range access, and nothing else. That `Write`'s address is the sum not reduced to `N`
bits, so that a sum of `2^N` or more is out of range too, is the spec's own decision D2 (log entry 4). -/
def Obligations.OutOfRangeAccessIsNoOp : Prop :=
  (∀ (s : State) (src dst : Reg), 65536 ≤ readAddress s src →
    exec (.read src dst) s = .next { s with pc := s.pc + 2, icount := s.icount + 1 }) ∧
  (∀ (s : State) (src : Reg) (offset : BitVec 6) (dst : Reg), 65536 ≤ writeAddress s offset dst →
    exec (.write src offset dst) s = .next { s with pc := s.pc + 3, icount := s.icount + 1 })

/-- R106: the shift function, at every width, value and amount. -/
def Obligations.ShiftFunction : Prop :=
  ∀ (n : Nat) (v : Word n) (a : Nat),
    (a < n → (shrN v a).toNat = v.toNat / 2 ^ a) ∧ (n ≤ a → (shrN v a).toNat = 0 ∧ v.toNat / 2 ^ a = 0) ∧
    (shrN v a).toNat ≤ v.toNat

/-- 10_state.md section 1 and 43_shift.md, which mark these as inferences of the spec: with one register in both roles,
`Read` puts the cell at the old value, `Write` stores the old value at an address made from it (the sum not reduced to
`N` bits: its own decision D2, log entry 4), `Shr` clears. -/
def Obligations.SameRegisterForms : Prop :=
  ∀ (s : State) (r : Reg) (offset : BitVec 6),
    (s.regVal r < 65536 →
      ∃ t, exec (.read r r) s = .next t ∧ t.regVal r = s.cellVal (s.regVal r)) ∧
    (s.regVal r + offset.toNat < 65536 →
      ∃ t, exec (.write r offset r) s = .next t ∧
        t.cellVal (s.regVal r + offset.toNat) = s.regVal r) ∧
    (∃ t, exec (.shr r r) s = .next t ∧ t.regVal r = 0)

/-- 42_memory_access.md's corner cases, inferences of the spec: with a word of at most 16 bits a `Read` is always in
range, and with one of fewer than 16 bits a `Write` is too (its address the unreduced sum of the spec's own decision D2,
log entry 4). -/
def Obligations.NarrowWordsAreAlwaysInRange : Prop :=
  ∀ (s : State) (r : Reg) (offset : BitVec 6),
    (s.cfg.N ≤ 16 → inRange (readAddress s r) = true) ∧ (s.cfg.N < 16 → inRange (writeAddress s offset r) = true)

/-- R123: an executed instruction raises nothing: it completes, and records no halt. -/
def Obligations.ExecutedInstructionsComplete : Prop :=
  ∀ (i : Instr) (s : State), ∃ t, exec i s = .next t ∧ t.halt = s.halt

/-! ### Frames and what is not read -/

/-- The frame of every instruction: the parameters and the halt record stay; every register but the destination of
`Load`, `Read` and `Shr` stays; every cell stays but the one at `Write`'s computed address (the unreduced sum of the spec's own
decision D2, log entry 4). -/
def Obligations.InstructionFrame : Prop :=
  ∀ (i : Instr) (s t : State), exec i s = .next t →
    t.cfg = s.cfg ∧ t.code = s.code ∧ t.halt = s.halt ∧
    match i with
    | .load _ reg => (∀ q, q ≠ reg → t.regVal q = s.regVal q) ∧ ∀ a, t.cellVal a = s.cellVal a
    | .read _ dst => (∀ q, q ≠ dst → t.regVal q = s.regVal q) ∧ ∀ a, t.cellVal a = s.cellVal a
    | .write _ offset dst => (∀ q, t.regVal q = s.regVal q) ∧
        ∀ a, a ≠ writeAddress s offset dst → t.cellVal a = s.cellVal a
    | .shr _ dst => (∀ q, q ≠ dst → t.regVal q = s.regVal q) ∧ ∀ a, t.cellVal a = s.cellVal a

/-- 10_state.md sections 2 and 4: no instruction reads the code stream, the program counter, the instruction counter or
the halt record; other values there give the same registers and memory. -/
def Obligations.InstructionsReadOnlyData : Prop :=
  ∀ (i : Instr) (s t : State) (code : List Byte) (pc icount : Nat) (halt : Option HaltRecord),
    exec i s = .next t →
    exec i { s with code := code, pc := pc, icount := icount, halt := halt } =
      .next { t with code := code, pc := pc + i.length, icount := icount + 1, halt := halt }

/-- 10_state.md section 1, the table's column of registers read: a register an instruction does not read has no effect on
any other register, on any cell or on the counters. -/
def Obligations.UnreadRegistersHaveNoEffect : Prop :=
  ∀ (i : Instr) (s t u : State) (q : Reg) (w : Word s.cfg.N), q ∉ registersRead i →
    exec i s = .next t → exec i (s.setReg q w) = .next u →
    (∀ r, r ≠ q → u.regVal r = t.regVal r) ∧ (∀ a, u.cellVal a = t.cellVal a) ∧
    u.pc = t.pc ∧ u.icount = t.icount ∧ u.halt = t.halt

/-- 10_state.md sections 1 and 6, over whole steps: a register changes only in a step that decodes an instruction whose
destination it is, and a cell only in a step that decodes a `Write` to it. That the cell's address is the sum not reduced
to `N` bits is the spec's own decision D2 (log entry 4). -/
def Obligations.OnlyDestinationsChange : Prop :=
  ∀ s t : State, step s = .next t →
    (∀ q, t.regVal q ≠ s.regVal q →
      ∃ b0 rest i l, s.fetch = b0 :: rest ∧ decode b0 rest = .ok (i, l) ∧ written s i = some q) ∧
    (∀ a, t.cellVal a ≠ s.cellVal a →
      ∃ b0 rest src offset dst l, s.fetch = b0 :: rest ∧ decode b0 rest = .ok (.write src offset dst, l) ∧
        a = s.regVal dst + offset.toNat ∧ a < 65536)

/-! ### Memory -/

/-- R32: `MemRead` gives what `MemWrite` last wrote to that cell, every other cell is unchanged by it, and a cell not
written since reset reads 0. -/
def Obligations.MemoryPrimitives : Prop :=
  (∀ (n : Nat) (m : Memory n) (a b : Nat) (v : Word n), (m.write a v).read b = if b = a then v else m.read b) ∧
  (∀ (cfg : Config) (code : List Byte) (a : Nat), (State.construct cfg code).cellVal a = 0)

/-- 20_memory.md section 7: a `Read` directly after a `Write` gives the value written when it addresses the same cell, and
the cell's earlier value otherwise. That the `Write`'s address is the sum not reduced to `N` bits, which matters here at
widths 14 and 15, is the spec's own decision D2 (log entry 4). -/
def Obligations.ReadAfterWrite : Prop :=
  ∀ (s t : State) (src : Reg) (offset : BitVec 6) (dst p q : Reg),
    s.regVal dst + offset.toNat < 65536 → s.regVal p < 65536 →
    exec (.write src offset dst) s = .next t →
    ∃ u, exec (.read p q) t = .next u ∧
      u.regVal q =
        if s.regVal p = s.regVal dst + offset.toNat then s.regVal src
        else s.cellVal (s.regVal p)

/-! ### The step -/

/-- 40_fetch_decode_execute.md section 2: when the bytes at the program counter decode to an instruction, the step is
exactly that instruction's execution, which includes its advance of the program counter. -/
def Obligations.StepRunsDecodedInstruction : Prop :=
  ∀ (s : State) (b0 : Byte) (rest : List Byte) (i : Instr) (l : Nat),
    s.halt = none → s.code.drop s.pc = b0 :: rest → decode b0 rest = .ok (i, l) → step s = exec i s ∧ l = i.length

/-- R126: a decode failure writes the halt record with its reason and the program counter, changes nothing else, and
leaves the machine halted, with no step after it. -/
def Obligations.DecodeFailureHalts : Prop :=
  ∀ (s : State) (b0 : Byte) (rest : List Byte) (e : DecodeFailure),
    s.halt = none → s.code.drop s.pc = b0 :: rest → decode b0 rest = .error e →
    ∃ t, step s = .next t ∧ t = { s with halt := some ⟨e, s.pc⟩ } ∧ t.status = .halted e ∧ ∀ u, step t ≠ .next u

/-- R125: at most one exception in a run, and the order of the tests: the end of the stream, the unknown opcode (however
few bytes are left), the truncated record, and only then execution, which raises nothing. -/
def Obligations.TestsComeInOrder : Prop :=
  (∀ s t : State, step s = .next t → s.halt = none) ∧
  ∀ s : State, s.halt = none →
    (s.code.length ≤ s.pc → s.status = .completed ∧ ∀ t, step s ≠ .next t) ∧
    (∀ b0 : Byte, s.code[s.pc]? = some b0 →
      (Variant.ofOpcode (b0.toNat % 128) = none → step s = .next { s with halt := some ⟨.unknownOpcode, s.pc⟩ }) ∧
      (∀ v : Variant, b0.toNat % 128 = v.opcode →
        (s.code.length - s.pc < v.length → step s = .next { s with halt := some ⟨.truncated, s.pc⟩ }) ∧
        (v.length ≤ s.code.length - s.pc →
          ∃ i t, i.variant = v ∧ step s = exec i s ∧ exec i s = .next t ∧ t.halt = none)))

/-- R15: the status by its three conditions, and a step is enabled exactly while it is Running. -/
def Obligations.StatusDecidesStep : Prop :=
  ∀ s : State,
    (s.status = .running ↔ s.halt = none ∧ s.pc < s.code.length) ∧
    (s.status = .completed ↔ s.halt = none ∧ s.code.length ≤ s.pc) ∧
    (∀ e, s.status = .halted e ↔ ∃ o, s.halt = some ⟨e, o⟩) ∧
    ((∃ t, step s = .next t) ↔ s.status = .running)

/-- R127: no step is enabled in a halted machine, so nothing clears or rewrites the record, and the record is written at
most once. -/
def Obligations.HaltIsFinal : Prop :=
  (∀ (s t : State) (h : HaltRecord), s.halt = some h → step s ≠ .next t) ∧
  (∀ s : State, ∀ k, s.halt ≠ none → runFor k s = s)

/-- The model's own form of "no step is enabled" (log entry 3): a terminal state's step stops under the name of the
terminal state, and no step is ever refused. -/
def Obligations.TerminalStatesStopByName : Prop :=
  ∀ s : State,
    (∀ h, s.halt = some h → step s = .fault (.halted h.reason)) ∧
    (s.halt = none → s.code.length ≤ s.pc → step s = .fault .completed) ∧
    ∀ r, step s ≠ .refused r

/-- R75: every instruction advances the program counter by its own record length, whatever registers and memory hold; a
failed decode leaves it; it never decreases. -/
def Obligations.ProgramCounterAdvances : Prop :=
  (∀ (s t : State) (i : Instr), exec i s = .next t →
    t.pc = s.pc + match i with
      | .load _ _ => 3
      | .read _ _ => 2
      | .write _ _ _ => 3
      | .shr _ _ => 2) ∧
  (∀ (s t : State) (b0 : Byte) (rest : List Byte) (e : DecodeFailure), s.code.drop s.pc = b0 :: rest →
    decode b0 rest = .error e → step s = .next t → t.pc = s.pc) ∧
  (∀ s t : State, step s = .next t → s.pc ≤ t.pc)

/-- 10_state.md section 4 and 60_exceptions.md section 8: the instruction counter counts every executed instruction,
out-of-range accesses included, and not the failing step of a halt. -/
def Obligations.InstructionCounterCounts : Prop :=
  ∀ s t : State, step s = .next t →
    (t.halt = none → t.icount = s.icount + 1) ∧ (t.halt ≠ none → t.icount = s.icount)

/-- R17: no step changes the code stream, and no instruction's effect depends on it. -/
def Obligations.CodeStreamIsImmutable : Prop :=
  (∀ s t : State, step s = .next t → t.code = s.code) ∧
  (∀ (i : Instr) (s t : State) (code : List Byte), exec i s = .next t →
    exec i { s with code := code } = .next { t with code := code })

/-! ### Reset -/

/-- 10_state.md section 8 and 70_reset_and_hazards.md section 1: reset zeroes every register and cell; that the program
counter and the instruction counter are 0 and no halt is recorded is the spec's own decision D3 (log entry 5); it binds
the parameters. -/
def Obligations.ResetZeroesEverything : Prop :=
  ∀ (cfg : Config) (code : List Byte), let s := State.construct cfg code
    (∀ r, s.regVal r = 0) ∧ (∀ a, s.cellVal a = 0) ∧ s.pc = 0 ∧ s.icount = 0 ∧ s.halt = none ∧
    s.cfg = cfg ∧ s.code = code ∧ s.status = if code = [] then .completed else .running

/-- Reset, at any width and with any code stream, meets the invariant and the value bound, and the model's `State.reset`
the invariant; what reset leaves is the spec's own decision D3 (log entry 5). -/
def Obligations.ResetMeetsInvariant : Prop :=
  (∀ (cfg : Config) (code : List Byte), (State.construct cfg code).Inv ∧ (State.construct cfg code).Bounded) ∧
  State.reset.Inv

/-! ### Invariants of the step -/

/-- Every step from every state that meets the invariant gives one that meets it: the data memory in canonical form, the
program counter inside the code stream, and a recorded halt at an offset of the stream where the machine stands. -/
def Obligations.StepKeepsInvariant : Prop :=
  ∀ s t : State, s.Inv → step s = .next t → t.Inv

/-- Every step from every state whose registers and cells hold at most 16383 gives one in which they do, and such a state
has no out-of-range access: an inference of the spec (70_reset_and_hazards.md section 6). The bound on `Write`'s address
is that of the unreduced sum of its own decision D2 (log entry 4). -/
def Obligations.StepKeepsValueBound : Prop :=
  ∀ s : State, s.Bounded →
    (∀ t, step s = .next t → t.Bounded) ∧
    ∀ (r : Reg) (offset : BitVec 6), readAddress s r ≤ 16383 ∧ writeAddress s offset r ≤ 16446

/-- 40_fetch_decode_execute.md section 4 and 70_reset_and_hazards.md section 6, inferences of the spec: in every state a
run from reset reaches, at any width and with any code stream, the invariant and the value bound hold, and `Completed`
means that the program counter is exactly at the end of the stream. What reset leaves is its own decision D3 (log
entry 5). -/
def Obligations.ReachableStatesAreGood : Prop :=
  ∀ (cfg : Config) (code : List Byte) (s : State), Reachable cfg code s →
    s.Inv ∧ s.Bounded ∧ s.cfg = cfg ∧ s.code = code ∧ (s.status = .completed → s.pc = code.length)

/-! ### Runs -/

/-- 40_fetch_decode_execute.md section 3, an inference of the spec: every run ends in a terminal state, after at most half
the remaining bytes in executed instructions. -/
def Obligations.EveryRunTerminates : Prop :=
  ∀ s : State, (run s).status ≠ .running ∧ (run s).icount ≤ s.icount + (s.code.length - s.pc) / 2

/-- 70_reset_and_hazards.md section 3: the host may stop after any number of steps, and going on to the end from there
reaches the very state the uninterrupted run reaches. The bound on a run's steps that `run` carries is an inference of
the spec (40_fetch_decode_execute.md section 3), and that a terminal state has no step is its decision D6 (log entry 3). -/
def Obligations.StoppingAndResumingChangesNothing : Prop :=
  ∀ (j : Nat) (s : State), run (runFor j s) = run s

/-- 40_fetch_decode_execute.md section 4: a well-formed stream is executed record by record, each once and in order: from
any running state that stands at the encodings of a list of instructions, that many steps are exactly the instructions'
effects one after another, and the machine is not halted. -/
def Obligations.RecordsExecuteOnceInOrder : Prop :=
  ∀ (is : List Instr) (rest : List Byte) (s : State), s.halt = none →
    s.code.drop s.pc = encodeProgram is ++ rest →
    runFor is.length s = execAll is s ∧ (execAll is s).halt = none ∧
    (execAll is s).icount = s.icount + is.length ∧ (execAll is s).pc = s.pc + (encodeProgram is).length
end

