-- ==== Sys2Proof/Laws/Decode.lean ====
section
/-! SUPPORT. The Field Layout Table's values, and what the decoder answers. -/

namespace Sys2Proof

@[simp] theorem Variant.load_length : Variant.load.length = 3 := rfl
@[simp] theorem Variant.read_length : Variant.read.length = 2 := rfl
@[simp] theorem Variant.write_length : Variant.write.length = 3 := rfl
@[simp] theorem Variant.shr_length : Variant.shr.length = 2 := rfl

@[simp] theorem Instr.load_length (const : BitVec 14) (reg : Reg) : (Instr.load const reg).length = 3 := Variant.load_length
@[simp] theorem Instr.read_length (src dst : Reg) : (Instr.read src dst).length = 2 := Variant.read_length
@[simp] theorem Instr.write_length (src : Reg) (offset : BitVec 6) (dst : Reg) :
    (Instr.write src offset dst).length = 3 := Variant.write_length
@[simp] theorem Instr.shr_length (src dst : Reg) : (Instr.shr src dst).length = 2 := Variant.shr_length

@[simp] theorem Variant.load_const : Variant.load.span .const = (7, 14) := rfl
@[simp] theorem Variant.load_reg : Variant.load.span .reg = (21, 3) := rfl
@[simp] theorem Variant.read_src : Variant.read.span .src = (7, 3) := rfl
@[simp] theorem Variant.read_dst : Variant.read.span .dst = (10, 3) := rfl
@[simp] theorem Variant.write_src : Variant.write.span .src = (7, 3) := rfl
@[simp] theorem Variant.write_offset : Variant.write.span .offset = (10, 6) := rfl
@[simp] theorem Variant.write_dst : Variant.write.span .dst = (16, 3) := rfl
@[simp] theorem Variant.shr_src : Variant.shr.span .src = (7, 3) := rfl
@[simp] theorem Variant.shr_dst : Variant.shr.span .dst = (10, 3) := rfl

/-- No two variants share an opcode. -/
theorem Variant.opcode_injective {v w : Variant} (h : v.opcode = w.opcode) : v = w := by
  cases v <;> cases w <;> first | rfl | cases h

/-- The demultiplexer finds a variant exactly at that variant's opcode. -/
theorem Variant.ofOpcode_eq_some {a : Nat} {v : Variant} : Variant.ofOpcode a = some v ↔ v.opcode = a := by
  constructor
  · intro h
    simpa using List.find?_some h
  · rintro rfl
    cases e : Variant.ofOpcode v.opcode with
    | none =>
      have := List.find?_eq_none.mp e v (by cases v <;> decide)
      simp at this
    | some w =>
      have : w.opcode = v.opcode := by simpa using List.find?_some e
      rw [Variant.opcode_injective this]

/-- The demultiplexer finds nothing exactly where no variant has the opcode. -/
theorem Variant.ofOpcode_eq_none {a : Nat} : Variant.ofOpcode a = none ↔ ∀ v : Variant, v.opcode ≠ a := by
  constructor
  · intro h v hv
    rw [Variant.ofOpcode_eq_some.mpr hv] at h
    cases h
  · intro h
    cases e : Variant.ofOpcode a with
    | none => rfl
    | some v => exact absurd (Variant.ofOpcode_eq_some.mp e) (h v)

@[simp] theorem Variant.build_variant (v : Variant) (acc : Nat) : (v.build acc).variant = v := by cases v <;> rfl

/-- Everything the decoder can answer: an instruction of the variant whose opcode stands in the first byte, with that
variant's length and enough bytes for it; or a failure. -/
theorem decode_cases (b0 : Byte) (rest : List Byte) :
    (∃ v : Variant, v.opcode = opcodeField b0 ∧ v.length ≤ rest.length + 1 ∧
      decode b0 rest = .ok (v.build (accumulate ((b0 :: rest).take v.length)), v.length)) ∨
    (∃ v : Variant, v.opcode = opcodeField b0 ∧ rest.length + 1 < v.length ∧ decode b0 rest = .error .truncated) ∨
    ((∀ v : Variant, v.opcode ≠ opcodeField b0) ∧ decode b0 rest = .error .unknownOpcode) := by
  unfold decode
  cases e : Variant.ofOpcode (opcodeField b0) with
  | none => exact .inr (.inr ⟨Variant.ofOpcode_eq_none.mp e, rfl⟩)
  | some v =>
    have hv := Variant.ofOpcode_eq_some.mp e
    by_cases h : rest.length + 1 < v.length
    · exact .inr (.inl ⟨v, hv, h, by simp [h]⟩)
    · exact .inl ⟨v, hv, Nat.not_lt.mp h, by simp [h]⟩

/-- A decoded instruction consumes its own length, which is 2 or 3 and no more than the bytes there are. -/
theorem decode_ok_length {b0 : Byte} {rest : List Byte} {i : Instr} {l : Nat} (h : decode b0 rest = .ok (i, l)) :
    l = i.length ∧ l ≤ rest.length + 1 := by
  rcases decode_cases b0 rest with ⟨v, -, hl, e⟩ | ⟨v, -, -, e⟩ | ⟨-, e⟩ <;> rw [e] at h
  · simp only [Except.ok.injEq, Prod.mk.injEq] at h
    obtain ⟨rfl, rfl⟩ := h
    exact ⟨by simp [Instr.length], hl⟩
  · cases h
  · cases h

end Sys2Proof
end

