-- ==== Sys2Proof/Laws/Memory.lean ====
section
/-! SUPPORT. The data memory: what a read sees after each operation, and that the canonical form is kept. -/

namespace Sys2Proof.Machine

@[simp] theorem Memory.read_nil {n : Nat} (a : Nat) : Memory.read ([] : Memory n) a = 0 := rfl

theorem Memory.read_cons {n : Nat} (c : Nat × Word n) (m : Memory n) (a : Nat) :
    Memory.read (c :: m) a = if c.1 = a then c.2 else Memory.read m a := rfl

/-- A removed cell reads 0 and every other cell reads as before. -/
theorem Memory.read_erase {n : Nat} (m : Memory n) (a b : Nat) :
    (Memory.erase m a).read b = if b = a then 0 else m.read b := by
  induction m with
  | nil => simp [Memory.erase]
  | cons c m ih =>
    have ih' : Memory.read (List.filter (fun c => c.1 != a) m) b = if b = a then 0 else Memory.read m b := ih
    by_cases h : c.1 = a <;> by_cases hb : b = a <;> simp_all [Memory.erase, Memory.read_cons]
    intro e; omega

/-- A cell inserted where none is listed reads as inserted and every other cell reads as before. -/
theorem Memory.read_insert {n : Nat} (m : Memory n) (a : Nat) (v : Word n) (b : Nat) (h : ∀ c ∈ m, c.1 ≠ a) :
    (Memory.insert m a v).read b = if b = a then v else m.read b := by
  induction m with
  | nil => simp [Memory.insert, Memory.read_cons, eq_comm]
  | cons c m ih =>
    have ih := ih fun d hd => h d (List.mem_cons_of_mem _ hd)
    have hc := h c List.mem_cons_self
    unfold Memory.insert
    split
    · simp [Memory.read_cons, eq_comm]
    · rw [Memory.read_cons, ih, Memory.read_cons]
      by_cases hb : b = a
      · subst hb; simp [hc]
      · simp [hb]

theorem Memory.mem_erase {n : Nat} {m : Memory n} {a : Nat} {c : Nat × Word n} :
    c ∈ m.erase a ↔ c ∈ m ∧ c.1 ≠ a := by
  simp [Memory.erase]

/-- A write makes its own cell read as written and leaves every other cell alone. -/
theorem Memory.read_write {n : Nat} (m : Memory n) (a : Nat) (v : Word n) (b : Nat) :
    (Memory.write m a v).read b = if b = a then v else m.read b := by
  unfold Memory.write
  split
  · next h => rw [Memory.read_erase, h]
  · rw [Memory.read_insert _ _ _ _ fun c hc => (Memory.mem_erase.mp hc).2, Memory.read_erase]
    by_cases hb : b = a <;> simp [hb]

/-- Removing a cell keeps the canonical form. -/
theorem Memory.wf_erase {n : Nat} {m : Memory n} (h : m.wf) (a : Nat) : (Memory.erase m a).wf :=
  ⟨h.1.filter _, fun c hc => h.2 c (Memory.mem_erase.mp hc).1⟩

theorem Memory.mem_insert {n : Nat} {m : Memory n} {a : Nat} {v : Word n} {c : Nat × Word n} :
    c ∈ Memory.insert m a v ↔ c = (a, v) ∨ c ∈ m := by
  induction m with
  | nil => simp [Memory.insert]
  | cons d m ih =>
    unfold Memory.insert
    split
    · simp
    · simp [ih]; tauto

/-- Inserting an existing, unlisted cell with a value other than 0 keeps the canonical form. -/
theorem Memory.wf_insert {n : Nat} {m : Memory n} (h : m.wf) {a : Nat} {v : Word n} (ha : a < memCells) (hv : v ≠ 0)
    (hn : ∀ c ∈ m, c.1 ≠ a) : (Memory.insert m a v).wf := by
  refine ⟨?_, fun c hc => ?_⟩
  · have hs := h.1
    clear h
    induction m with
    | nil => simp [Memory.insert]
    | cons c m ih =>
      have hs' := List.pairwise_cons.mp hs
      unfold Memory.insert
      split
      · next hlt =>
        refine List.pairwise_cons.mpr ⟨fun d hd => ?_, hs⟩
        rcases List.mem_cons.mp hd with rfl | hd
        · exact hlt
        · exact Nat.lt_trans hlt (hs'.1 d hd)
      · next hge =>
        refine List.pairwise_cons.mpr ⟨fun d hd => ?_, ih (fun d hd => hn d (List.mem_cons_of_mem _ hd)) hs'.2⟩
        rcases Memory.mem_insert.mp hd with rfl | hd
        · exact Nat.lt_of_le_of_ne (Nat.not_lt.mp hge) (hn c List.mem_cons_self)
        · exact hs'.1 d hd
  · rcases Memory.mem_insert.mp hc with rfl | hc
    · exact ⟨ha, hv⟩
    · exact h.2 c hc

/-- A write to an existing cell keeps the canonical form. -/
theorem Memory.wf_write {n : Nat} {m : Memory n} (h : m.wf) {a : Nat} (v : Word n) (ha : a < memCells) :
    (Memory.write m a v).wf := by
  unfold Memory.write
  split
  · exact Memory.wf_erase h a
  · next hv => exact Memory.wf_insert (Memory.wf_erase h a) ha hv fun c hc => (Memory.mem_erase.mp hc).2

/-- The value of every cell after a memory write of the machine. -/
theorem State.memRead_memWrite (s : State) (a : Nat) (v : Word s.cfg.N) (b : Nat) :
    (s.memWrite a v).memRead b = if b = a then v else s.memRead b :=
  Memory.read_write s.mem a v b

/-- The same as a number. -/
@[simp] theorem State.memWrite_cellVal (s : State) (a : Nat) (v : Word s.cfg.N) (b : Nat) :
    (s.memWrite a v).cellVal b = if b = a then v.toNat else s.cellVal b := by
  show ((s.memWrite a v).memRead b).toNat = _
  rw [State.memRead_memWrite]
  split <;> rfl

end Sys2Proof.Machine
end

