-- ==== Sys2Proof/Laws/Operands.lean ====
section
/-! SUPPORT. The operand forms and the shift in the numbers the spec states them in. -/

namespace Sys2Proof.Machine

theorem inRange_iff (a : Nat) : inRange a = true ↔ a < 65536 := by
  simp [inRange]

/-- The immediate keeps its value: `N` is at least 14 (R3). -/
@[simp] theorem immediate_toNat (s : State) (c : BitVec 14) : (immediate s c).toNat = c.toNat :=
  BitVec.toNat_setWidth_of_le s.cfg.wide

/-- The word a register holds, as a number. -/
@[simp] theorem reg_toNat (s : State) (r : Reg) : (s.reg r).toNat = s.regVal r := rfl

/-- The word a cell holds, as a number. -/
@[simp] theorem memRead_toNat (s : State) (a : Nat) : (s.memRead a).toNat = s.cellVal a := rfl

/-- The shift in the natural numbers. -/
@[simp] theorem shrN_toNat {n : Nat} (v : Word n) (a : Nat) :
    (shrN v a).toNat = if a < n then v.toNat / 2 ^ a else 0 := by
  unfold shrN
  split
  · rw [BitVec.toNat_ofNat]
    exact Nat.mod_eq_of_lt (Nat.lt_of_le_of_lt (Nat.div_le_self _ _) v.isLt)
  · simp

/-- A shift never increases a value. -/
theorem shrN_le {n : Nat} (v : Word n) (a : Nat) : (shrN v a).toNat ≤ v.toNat := by
  rw [shrN_toNat]
  split
  · exact Nat.div_le_self _ _
  · exact Nat.zero_le _

end Sys2Proof.Machine
end

