-- ==== Sys2Proof/Laws/PerInstr.lean ====
section
/-! SUPPORT. The family of statements that are made of every instruction, one lemma per constructor. -/

namespace Sys2Proof.Laws.OperandRange

/-- An instruction's operands lie in their declared ranges (R50, R57), so upstream validation passes it unchanged. -/
def Statement (i : Instr) : Prop := i.wellFormed = true ∧ i.toRaw.check = .ok i

theorem load (const : BitVec 14) (reg : Reg) : Statement (.load const reg) := by
  have := const.isLt
  constructor <;> simp [Instr.wellFormed, RawInstr.wellFormed, RawInstr.check, Instr.toRaw, this]

theorem read (src dst : Reg) : Statement (.read src dst) := by
  constructor <;> simp [Instr.wellFormed, RawInstr.wellFormed, RawInstr.check, Instr.toRaw]

theorem write (src : Reg) (offset : BitVec 6) (dst : Reg) : Statement (.write src offset dst) := by
  have := offset.isLt
  constructor <;> simp [Instr.wellFormed, RawInstr.wellFormed, RawInstr.check, Instr.toRaw, this]

theorem shr (src dst : Reg) : Statement (.shr src dst) := by
  constructor <;> simp [Instr.wellFormed, RawInstr.wellFormed, RawInstr.check, Instr.toRaw]

end Sys2Proof.Laws.OperandRange
end

