-- ==== Sys2Proof/Laws/State.lean ====
section
/-! SUPPORT. Every field after every state operation, so that no later proof unfolds a record update.
Registers and cells are compared as numbers (`regVal`, `cellVal`): the type of a word depends on its state's width, and
numbers rewrite whatever the width is. -/

namespace Sys2Proof.Machine

/-! ### `State.setReg` -/

@[simp] theorem State.setReg_cfg (s : State) (r : Reg) (v : Word s.cfg.N) : (s.setReg r v).cfg = s.cfg := rfl
@[simp] theorem State.setReg_code (s : State) (r : Reg) (v : Word s.cfg.N) : (s.setReg r v).code = s.code := rfl
@[simp] theorem State.setReg_x (s : State) (r : Reg) (v : Word s.cfg.N) : (s.setReg r v).x = s.x.set r v := rfl
@[simp] theorem State.setReg_pc (s : State) (r : Reg) (v : Word s.cfg.N) : (s.setReg r v).pc = s.pc := rfl
@[simp] theorem State.setReg_mem (s : State) (r : Reg) (v : Word s.cfg.N) : (s.setReg r v).mem = s.mem := rfl
@[simp] theorem State.setReg_icount (s : State) (r : Reg) (v : Word s.cfg.N) : (s.setReg r v).icount = s.icount := rfl
@[simp] theorem State.setReg_halt (s : State) (r : Reg) (v : Word s.cfg.N) : (s.setReg r v).halt = s.halt := rfl
@[simp] theorem State.setReg_cellVal (s : State) (r : Reg) (v : Word s.cfg.N) (a : Nat) :
    (s.setReg r v).cellVal a = s.cellVal a := rfl

/-- The value of every register after a register write. -/
theorem State.reg_setReg (s : State) (r q : Reg) (v : Word s.cfg.N) :
    (s.setReg r v).reg q = if q = r then v else s.reg q := by
  show (s.x.set r v)[q] = if q = r then v else s.x[q]
  by_cases h : q = r
  · subst h; simp
  · have : r.val ≠ q.val := fun e => h (Fin.ext e.symm)
    simp [h, this]

/-- The same as a number. -/
@[simp] theorem State.setReg_regVal (s : State) (r q : Reg) (v : Word s.cfg.N) :
    (s.setReg r v).regVal q = if q = r then v.toNat else s.regVal q := by
  show ((s.setReg r v).reg q).toNat = _
  rw [State.reg_setReg]
  split <;> rfl

theorem State.reg_setReg_self (s : State) (r : Reg) (v : Word s.cfg.N) : (s.setReg r v).reg r = v := by
  rw [State.reg_setReg, if_pos rfl]

theorem State.reg_setReg_of_ne (s : State) {r q : Reg} (v : Word s.cfg.N) (h : q ≠ r) :
    (s.setReg r v).reg q = s.reg q := by
  rw [State.reg_setReg, if_neg h]

/-- A register holds an `N`-bit value. -/
theorem State.regVal_lt (s : State) (r : Reg) : s.regVal r < 2 ^ s.cfg.N := (s.reg r).isLt

/-! ### `State.memWrite` -/

@[simp] theorem State.memWrite_cfg (s : State) (a : Nat) (v : Word s.cfg.N) : (s.memWrite a v).cfg = s.cfg := rfl
@[simp] theorem State.memWrite_code (s : State) (a : Nat) (v : Word s.cfg.N) : (s.memWrite a v).code = s.code := rfl
@[simp] theorem State.memWrite_x (s : State) (a : Nat) (v : Word s.cfg.N) : (s.memWrite a v).x = s.x := rfl
@[simp] theorem State.memWrite_pc (s : State) (a : Nat) (v : Word s.cfg.N) : (s.memWrite a v).pc = s.pc := rfl
@[simp] theorem State.memWrite_mem (s : State) (a : Nat) (v : Word s.cfg.N) :
    (s.memWrite a v).mem = s.mem.write a v := rfl
@[simp] theorem State.memWrite_icount (s : State) (a : Nat) (v : Word s.cfg.N) :
    (s.memWrite a v).icount = s.icount := rfl
@[simp] theorem State.memWrite_halt (s : State) (a : Nat) (v : Word s.cfg.N) : (s.memWrite a v).halt = s.halt := rfl
@[simp] theorem State.memWrite_regVal (s : State) (a : Nat) (v : Word s.cfg.N) (r : Reg) :
    (s.memWrite a v).regVal r = s.regVal r := rfl

/-! ### `State.retire` -/

@[simp] theorem State.retire_cfg (s : State) (l : Nat) : (s.retire l).cfg = s.cfg := rfl
@[simp] theorem State.retire_code (s : State) (l : Nat) : (s.retire l).code = s.code := rfl
@[simp] theorem State.retire_x (s : State) (l : Nat) : (s.retire l).x = s.x := rfl
@[simp] theorem State.retire_pc (s : State) (l : Nat) : (s.retire l).pc = s.pc + l := rfl
@[simp] theorem State.retire_mem (s : State) (l : Nat) : (s.retire l).mem = s.mem := rfl
@[simp] theorem State.retire_icount (s : State) (l : Nat) : (s.retire l).icount = s.icount + 1 := rfl
@[simp] theorem State.retire_halt (s : State) (l : Nat) : (s.retire l).halt = s.halt := rfl
@[simp] theorem State.retire_regVal (s : State) (l : Nat) (r : Reg) : (s.retire l).regVal r = s.regVal r := rfl
@[simp] theorem State.retire_cellVal (s : State) (l a : Nat) :
    (s.retire l).cellVal a = s.cellVal a := rfl

/-! ### `State.takeHalt` -/

@[simp] theorem State.takeHalt_cfg (s : State) (e : DecodeFailure) : (s.takeHalt e).cfg = s.cfg := rfl
@[simp] theorem State.takeHalt_code (s : State) (e : DecodeFailure) : (s.takeHalt e).code = s.code := rfl
@[simp] theorem State.takeHalt_x (s : State) (e : DecodeFailure) : (s.takeHalt e).x = s.x := rfl
@[simp] theorem State.takeHalt_pc (s : State) (e : DecodeFailure) : (s.takeHalt e).pc = s.pc := rfl
@[simp] theorem State.takeHalt_mem (s : State) (e : DecodeFailure) : (s.takeHalt e).mem = s.mem := rfl
@[simp] theorem State.takeHalt_icount (s : State) (e : DecodeFailure) : (s.takeHalt e).icount = s.icount := rfl
@[simp] theorem State.takeHalt_halt (s : State) (e : DecodeFailure) : (s.takeHalt e).halt = some ⟨e, s.pc⟩ := rfl
@[simp] theorem State.takeHalt_regVal (s : State) (e : DecodeFailure) (r : Reg) :
    (s.takeHalt e).regVal r = s.regVal r := rfl
@[simp] theorem State.takeHalt_cellVal (s : State) (e : DecodeFailure) (a : Nat) :
    (s.takeHalt e).cellVal a = s.cellVal a := rfl

/-! ### `State.construct` -/

@[simp] theorem State.construct_cfg (c : Config) (code : List Byte) : (State.construct c code).cfg = c := rfl
@[simp] theorem State.construct_code (c : Config) (code : List Byte) : (State.construct c code).code = code := rfl
@[simp] theorem State.construct_pc (c : Config) (code : List Byte) : (State.construct c code).pc = 0 := rfl
@[simp] theorem State.construct_mem (c : Config) (code : List Byte) : (State.construct c code).mem = [] := rfl
@[simp] theorem State.construct_icount (c : Config) (code : List Byte) : (State.construct c code).icount = 0 := rfl
@[simp] theorem State.construct_halt (c : Config) (code : List Byte) : (State.construct c code).halt = none := rfl

@[simp] theorem State.construct_regVal (c : Config) (code : List Byte) (r : Reg) :
    (State.construct c code).regVal r = 0 := by
  show ((Vector.replicate 8 (0 : Word c.N))[r.val]).toNat = 0
  simp

@[simp] theorem State.construct_cellVal (c : Config) (code : List Byte) (a : Nat) :
    (State.construct c code).cellVal a = 0 := by
  show (0 : Word c.N).toNat = 0
  simp

/-! ### Fetch and status -/

/-- The bytes left to fetch number `CODE_LEN - pc`. -/
@[simp] theorem State.fetch_length (s : State) : s.fetch.length = s.code.length - s.pc := by
  simp [State.fetch]

/-- A placed record is what is fetched next, and what stood behind its place follows it. -/
theorem State.fetch_placeRecord (s : State) (bytes : List Byte) :
    (s.placeRecord bytes).fetch = bytes ++ s.code.drop (s.pc + bytes.length) := by
  show List.drop s.pc (s.code.take s.pc ++ List.replicate (s.pc - s.code.length) 0 ++ bytes ++ _) = _
  have h : (s.code.take s.pc ++ List.replicate (s.pc - s.code.length) (0 : Byte)).length = s.pc := by
    simp; omega
  rw [List.append_assoc _ bytes]
  exact List.drop_left' h

theorem State.status_of_halt {s : State} {h : HaltRecord} (e : s.halt = some h) : s.status = .halted h.reason := by
  simp [State.status, e]

theorem State.status_of_running {s : State} (e : s.halt = none) (h : s.pc < s.code.length) :
    s.status = .running := by
  simp [State.status, e, h]

theorem State.status_of_completed {s : State} (e : s.halt = none) (h : s.code.length ≤ s.pc) :
    s.status = .completed := by
  simp [State.status, e, Nat.not_lt.mpr h]

theorem State.status_eq_running {s : State} : s.status = .running ↔ s.halt = none ∧ s.pc < s.code.length := by
  unfold State.status
  split <;> simp_all

end Sys2Proof.Machine
end

