-- ==== Sys2Proof/Laws/Step.lean ====
section
/-! SUPPORT. What each meaning answers, and everything a step can do. -/

namespace Sys2Proof.Machine

/-! ### The meanings, one equation each -/

theorem exec_load (c : BitVec 14) (r : Reg) (s : State) :
    exec (.load c r) s = .next ((s.setReg r (immediate s c)).retire 3) := rfl

theorem exec_read_of_lt {src : Reg} (dst : Reg) {s : State} (h : readAddress s src < 65536) :
    exec (.read src dst) s = .next ((s.setReg dst (s.memRead (readAddress s src))).retire 2) := by
  show Host.Outcome.next _ = _
  rw [if_pos ((inRange_iff _).mpr h)]; rfl

theorem exec_read_of_not_lt {src : Reg} (dst : Reg) {s : State} (h : ¬ readAddress s src < 65536) :
    exec (.read src dst) s = .next (s.retire 2) := by
  show Host.Outcome.next _ = _
  rw [if_neg (mt (inRange_iff _).mp h)]; rfl

theorem exec_write_of_lt (src : Reg) {off : BitVec 6} {dst : Reg} {s : State} (h : writeAddress s off dst < 65536) :
    exec (.write src off dst) s = .next ((s.memWrite (writeAddress s off dst) (s.reg src)).retire 3) := by
  show Host.Outcome.next _ = _
  rw [if_pos ((inRange_iff _).mpr h)]; rfl

theorem exec_write_of_not_lt (src : Reg) {off : BitVec 6} {dst : Reg} {s : State}
    (h : ¬ writeAddress s off dst < 65536) : exec (.write src off dst) s = .next (s.retire 3) := by
  show Host.Outcome.next _ = _
  rw [if_neg (mt (inRange_iff _).mp h)]; rfl

theorem exec_shr (src dst : Reg) (s : State) :
    exec (.shr src dst) s = .next ((s.setReg dst (shrN (s.reg dst) (shiftAmount s src))).retire 2) := rfl

/-! ### The step -/

/-- A non-empty fetch is a position inside the code stream. -/
theorem State.lt_of_fetch {s : State} {b0 : Byte} {rest : List Byte} (h : s.fetch = b0 :: rest) :
    s.pc < s.code.length ∧ s.code.length = s.pc + (rest.length + 1) := by
  have := congrArg List.length h
  simp at this
  omega

/-- A step of a machine that is not halted, on the bytes it fetches. -/
theorem step_of_fetch {s : State} {b0 : Byte} {rest : List Byte} (hh : s.halt = none) (hf : s.fetch = b0 :: rest) :
    step s = match decode b0 rest with
      | .ok (i, _) => exec i s
      | .error e => .next (s.takeHalt e) := by
  unfold step engineStep
  rw [State.status_of_running hh (State.lt_of_fetch hf).1, hf]
  rfl

theorem step_of_halt {s : State} {h : HaltRecord} (e : s.halt = some h) : step s = .fault (.halted h.reason) := by
  simp [step, engineStep, State.status_of_halt e]

theorem step_of_end {s : State} (e : s.halt = none) (h : s.code.length ≤ s.pc) : step s = .fault .completed := by
  simp [step, engineStep, State.status_of_completed e h]

/-- Everything a step can do: if it answers a next state, the machine was not halted and stood at a record of its code
stream, which either decoded, and the step is that instruction, or did not, and the step is the halt entry. -/
theorem step_next_cases {s t : State} (h : step s = .next t) :
    s.halt = none ∧ ∃ b0 rest, s.fetch = b0 :: rest ∧
      ((∃ i l, decode b0 rest = .ok (i, l) ∧ exec i s = .next t) ∨
       (∃ e, decode b0 rest = .error e ∧ t = s.takeHalt e)) := by
  cases hh : s.halt with
  | some r => rw [step_of_halt hh] at h; cases h
  | none =>
    refine ⟨rfl, ?_⟩
    cases hf : s.fetch with
    | nil =>
      have : s.code.length ≤ s.pc := by
        have := congrArg List.length hf
        simp at this; omega
      rw [step_of_end hh this] at h; cases h
    | cons b0 rest =>
      refine ⟨b0, rest, rfl, ?_⟩
      rw [step_of_fetch hh hf] at h
      cases hd : decode b0 rest with
      | ok p => obtain ⟨i, l⟩ := p; rw [hd] at h; exact .inl ⟨i, l, rfl, h⟩
      | error e =>
        rw [hd] at h
        exact .inr ⟨e, rfl, (Host.Outcome.next.inj h).symm⟩

end Sys2Proof.Machine
end

