-- ==== Sys2Proof/Laws/Run.lean ====
section
/-! SUPPORT. How runs are taken apart: one step off the front, a stuck state, a run in two parts. -/

namespace Sys2Proof.Machine

@[simp] theorem runFor_zero (s : State) : runFor 0 s = s := rfl

theorem runFor_succ_of_next {s t : State} (h : step s = .next t) (k : Nat) : runFor (k + 1) s = runFor k t := by
  simp only [runFor, h]

/-- A state without a next state stays as it is, however many steps are asked for. -/
theorem runFor_of_no_next {s : State} (h : ∀ t, step s ≠ .next t) (k : Nat) : runFor k s = s := by
  cases k with
  | zero => rfl
  | succ k =>
    unfold runFor
    split
    · next t e => exact absurd e (h t)
    · rfl
    · rfl

/-- Running `j + k` steps is running `k` steps from where `j` steps lead. -/
theorem runFor_add (j k : Nat) (s : State) : runFor (j + k) s = runFor k (runFor j s) := by
  induction j generalizing s with
  | zero => rw [Nat.zero_add, runFor_zero]
  | succ j ih =>
    by_cases h : ∃ t, step s = .next t
    · obtain ⟨t, ht⟩ := h
      rw [Nat.succ_add, runFor_succ_of_next ht, runFor_succ_of_next ht, ih]
    · have h' : ∀ t, step s ≠ .next t := not_exists.mp h
      rw [runFor_of_no_next h', runFor_of_no_next h', runFor_of_no_next h']

end Sys2Proof.Machine
end

