-- ==== Sys2Proof/Tests/Slice0.lean ====
section
/-! SUPPORT. Tests against the spec's own vectors (95_test_vectors.md; the vector's id stands at each), the well-formedness
smoke test, and for every statement with hypotheses a witness that meets them. -/

namespace Sys2Proof.Tests

open Sys2Proof Sys2Proof.Machine

/-- A state built from reset with some registers and cells given values. -/
def mk (cfg : Config) (code : List Byte) (regs : List (Reg × Nat)) (cells : List (Nat × Nat)) : State :=
  let withRegs : State := regs.foldl (fun s p => s.setReg p.1 (BitVec.ofNat _ p.2)) (State.construct cfg code)
  cells.foldl (fun s p => s.memWrite p.1 (BitVec.ofNat _ p.2)) withRegs

/-- The next state of an outcome has a property. -/
def nextHas (o : Host.Outcome State Fault Refusal) (p : State → Bool) : Bool :=
  match o with
  | .next t => p t
  | .fault _ => false
  | .refused _ => false

def n16 : Config := ⟨16, by decide⟩
def n15 : Config := ⟨15, by decide⟩

/-! ### Well-formedness: each operand's range, one past its end -/

theorem test_illFormed_load : (RawInstr.load 16384 7).wellFormed = false ∧ (RawInstr.load 16383 8).wellFormed = false ∧
    (RawInstr.load 16383 7).wellFormed = true := by decide
theorem test_illFormed_read : (RawInstr.read 8 7).wellFormed = false ∧ (RawInstr.read 7 8).wellFormed = false ∧
    (RawInstr.read 7 7).wellFormed = true := by decide
theorem test_illFormed_write : (RawInstr.write 8 63 7).wellFormed = false ∧ (RawInstr.write 7 64 7).wellFormed = false ∧
    (RawInstr.write 7 63 8).wellFormed = false ∧ (RawInstr.write 7 63 7).wellFormed = true := by decide
theorem test_illFormed_shr : (RawInstr.shr 8 7).wellFormed = false ∧ (RawInstr.shr 7 8).wellFormed = false ∧
    (RawInstr.shr 7 7).wellFormed = true := by decide
theorem test_illFormed_refused : encodeRaw (.write 7 64 7) = .error .invalidOperandRange := by decide

/-! ### Decoding: words written out bit by bit from the formats of R53 to R55 -/

/-- E8: `Load(12345, 0)`; const 12345 = 11000000111001, reg 000, A 1011010. -/
theorem test_decode_load : decodeTableWord 24 0b000_11000000111001_1011010 = some (.load 12345 0) := by decide
/-- E5: `Load(0, 7)` is 5A 00 E0. -/
theorem test_decode_load_reg : decode 0x5A [0x00, 0xE0] = .ok (.load 0 7, 3) := by decide
/-- E14: `Read(5, 3)`; padding 000, dst 011, src 101, A 0101011. -/
theorem test_decode_read : decodeTableWord 16 0b000_011_101_0101011 = some (.read 5 3) := by decide
/-- X1: non-zero padding is ignored. -/
theorem test_decode_read_padding : decode 0x2B [0xF9] = .ok (.read 2 6, 2) := by decide
/-- E21: `Write(3, 32, 5)`; padding 00000, dst 101, offset 100000, src 011, A 1000000. -/
theorem test_decode_write : decodeTableWord 24 0b00000_101_100000_011_1000000 = some (.write 3 32 5) := by decide
/-- X2: non-zero padding is ignored. -/
theorem test_decode_write_padding : decode 0xC0 [0x84, 0xFA] = .ok (.write 1 33 2, 3) := by decide
/-- E29: `Shr(4, 3)`; padding 000, dst 011, src 100, A 0000000. -/
theorem test_decode_shr : decodeTableWord 16 0b000_011_100_0000000 = some (.shr 4 3) := by decide
/-- X4. -/
theorem test_decode_shr_padding : decode 0x00 [0xFF] = .ok (.shr 6 7, 2) := by decide
/-- X10, X13, X17, X21: a neighbour of a legal opcode is unknown, a short record is truncated. -/
theorem test_decode_failures : decode 0x5B [0, 0] = .error .unknownOpcode ∧ decode 0x2A [0] = .error .unknownOpcode ∧
    decode 0x00 [] = .error .truncated ∧ decode 0xDA [0x05] = .error .truncated := by decide
/-- E3, E11, E17, E30. -/
theorem test_encode : encode (.load 16383 7) = [0xDA, 0xFF, 0xFF] ∧ encode (.read 7 7) = [0xAB, 0x1F] ∧
    encode (.write 7 63 7) = [0xC0, 0xFF, 0x07] ∧ encode (.shr 1 2) = [0x80, 0x08] := by decide

/-! ### The instructions, one step each -/

/-- L4: all 32 bits are replaced. -/
theorem test_load_replaces : nextHas (step (mk Config.standard [0xDA, 0x00, 0x00] [(0, 0xFFFFFFFF)] []))
    (fun t => t.regVal 0 == 1 && t.pc == 3 && t.icount == 1) = true := by decide
/-- L3: the largest constant. -/
theorem test_load_largest : nextHas (step (mk n15 [0xDA, 0xFF, 0x1F] [] [])) (fun t => t.regVal 0 == 16383) = true := by
  decide
/-- M2: the last cell. -/
theorem test_read_lastCell :
    nextHas (step (mk Config.standard [0xAB, 0x08] [(1, 65535), (2, 77)] [(65535, 9)]))
      (fun t => t.regVal 2 == 9 && t.pc == 2 && t.icount == 1) = true := by decide
/-- M5: the address is not masked to 16 bits, and a no-op still counts. -/
theorem test_read_notMasked :
    nextHas (step (mk Config.standard [0xAB, 0x08] [(1, 65541), (2, 77)] [(5, 1)]))
      (fun t => t.regVal 2 == 77 && t.pc == 2 && t.icount == 1) = true := by decide
/-- W4: the last cell, by the largest offset. -/
theorem test_write_lastCell :
    nextHas (step (mk Config.standard [0xC0, 0xFD, 0x02] [(2, 65472), (3, 5)] []))
      (fun t => t.mem == [(65535, BitVec.ofNat _ 5)] && t.pc == 3) = true := by decide
/-- W6: the sum exceeds 32 bits and does not wrap. -/
theorem test_write_noWrap :
    nextHas (step (mk Config.standard [0xC0, 0xFD, 0x02] [(2, 4294967295), (3, 5)] []))
      (fun t => t.mem == [] && t.pc == 3 && t.icount == 1) = true := by decide
/-- H6: the amount is not taken modulo 32. -/
theorem test_shr_saturates :
    nextHas (step (mk Config.standard [0x80, 0x08] [(1, 33), (2, 0xFFFFFFFF)] []))
      (fun t => t.regVal 2 == 0 && t.pc == 2) = true := by decide
/-- H15: the threshold follows the width, here 16. -/
theorem test_shr_width16 :
    nextHas (step (mk n16 [0x00, 0x01] [(2, 15), (0, 65535)] [])) (fun t => t.regVal 0 == 1) = true := by decide

/-! ### The engine -/

/-- P3's second step: the halt is at the bad byte, which is not counted or skipped. -/
theorem test_halt_unknown :
    nextHas (step { State.construct Config.standard [0xDA, 0x03, 0x00, 0x01, 0xDA, 0x04, 0x20] with pc := 3, icount := 1 })
      (fun t => t.halt == some ⟨.unknownOpcode, 3⟩ && t.pc == 3 && t.icount == 1) = true := by decide
/-- P4's third step. -/
theorem test_halt_truncated :
    nextHas (step { State.construct Config.standard [0xDA, 0x02, 0x20, 0x00, 0x04, 0x40, 0x00] with pc := 5, icount := 2 })
      (fun t => t.halt == some ⟨.truncated, 5⟩ && t.pc == 5 && t.icount == 2) = true := by decide
/-- S5: the source's program executes 4 steps and is completed. -/
theorem test_scenario5 :
    let t := run (State.construct Config.standard [0xDA, 0x05, 0xE1, 0x2B, 0x19, 0xC0, 0x84, 0x02, 0x00, 0x09])
    t.icount = 4 ∧ t.status = .completed ∧ t.regVal 7 = 523 := by decide
/-- R133: the status codes. -/
theorem test_statusCodes : Status.running.code = 0 ∧ Status.completed.code = 1 ∧
    (Status.halted .unknownOpcode).code = 2 ∧ (Status.halted .truncated).code = 3 := by decide
/-- A placed word is the next instruction the step runs. -/
theorem test_withFetchWord : nextHas (step (State.reset.withFetchWord 24 0xE105DA)) (fun t => t.regVal 7 == 523) = true := by
  decide

/-! ### Witnesses: each statement's hypotheses are met, at a boundary where there is one -/

theorem witness_EncodeOfDecodeIffPaddingZero :
    decode 0xDA [0xFF, 0xFF] = .ok (.load 16383 7, 3) ∧ decode 0xAB [0x1F] = .ok (.read 7 7, 2) ∧
    decode 0xC0 [0xFF, 0xFF] = .ok (.write 7 63 7, 3) ∧ decode 0x80 [0xE0] = .ok (.shr 1 0, 2) := by decide
theorem witness_DecoderIsThePseudocode : ([0x00, 0xDA] : List Byte)[1]? = some 0xDA := by decide
theorem witness_OpcodeSelectsVariant : (0x80 : Byte).toNat % 128 = 0 ∧ (0xAB : Byte).toNat % 128 = 43 ∧
    (0xC0 : Byte).toNat % 128 = 64 ∧ (0xDA : Byte).toNat % 128 = 90 ∧
    ¬ ((0xDB : Byte).toNat % 128 = 0 ∨ (0xDB : Byte).toNat % 128 = 43 ∨ (0xDB : Byte).toNat % 128 = 64 ∨
      (0xDB : Byte).toNat % 128 = 90) := by decide
/-- The unknown opcode stands in the last byte. -/
theorem witness_UnknownOpcodeHalts : let s := State.construct Config.standard [0xFF]
    s.halt = none ∧ s.code[s.pc]? = some 0xFF ∧
    ¬ ((0xFF : Byte).toNat % 128 = 0 ∨ (0xFF : Byte).toNat % 128 = 43 ∨ (0xFF : Byte).toNat % 128 = 64 ∨
      (0xFF : Byte).toNat % 128 = 90) := by decide
theorem witness_TruncatedExactlyWhenShort_two : let s := State.construct Config.standard [0xAB]
    s.halt = none ∧ s.code[s.pc]? = some 0xAB ∧ (0xAB : Byte).toNat % 128 = 43 ∧ s.code.length - s.pc < 2 := by decide
theorem witness_TruncatedExactlyWhenShort_three : let s := State.construct Config.standard [0xC0, 0x00]
    s.halt = none ∧ s.code[s.pc]? = some 0xC0 ∧ (0xC0 : Byte).toNat % 128 = 64 ∧ s.code.length - s.pc < 3 := by decide
theorem witness_PaddingBitsAreIgnored : (0x2B : Byte).toNat % 128 = 43 ∧ (0x19 : Byte).toNat % 32 = (0xF9 : Byte).toNat % 32 ∧
    (0xC0 : Byte).toNat % 128 = 64 ∧ (0x02 : Byte).toNat % 8 = (0xFA : Byte).toNat % 8 := by decide
theorem witness_OutOfRangeOperandsAreRefused : (RawInstr.load 16383 7).check = .ok (.load 16383 7) ∧
    (RawInstr.shr 8 0).wellFormed = false := by decide
theorem witness_OutOfRangeAccessIsNoOp : 65536 ≤ readAddress (mk Config.standard [] [(1, 65536)] []) 1 ∧
    65536 ≤ writeAddress (mk Config.standard [] [(2, 65535)] []) 1 2 := by decide
theorem witness_ShiftFunction : (31 : Nat) < 32 ∧ 32 ≤ (32 : Nat) := by decide
theorem witness_SameRegisterForms : (mk Config.standard [] [(1, 65535)] []).regVal 1 < 65536 ∧
    (mk Config.standard [] [(1, 65472)] []).regVal 1 + (63 : BitVec 6).toNat < 65536 := by decide
theorem witness_NarrowWordsAreAlwaysInRange : (mk n16 [] [] []).cfg.N ≤ 16 ∧ (mk n15 [] [] []).cfg.N < 16 := by decide

/-- Every instruction has a next state, in every state. -/
theorem witness_InstructionFrame (s : State) :
    (∃ t, exec (.load 1 0) s = .next t) ∧ (∃ t, exec (.read 1 2) s = .next t) ∧
    (∃ t, exec (.write 3 1 2) s = .next t) ∧ ∃ t, exec (.shr 1 2) s = .next t :=
  ⟨⟨_, rfl⟩, ⟨_, rfl⟩, ⟨_, rfl⟩, ⟨_, rfl⟩⟩
/-- The same hypothesis. -/
theorem witness_InstructionsReadOnlyData : ∃ t, exec (.write 3 1 2) State.reset = .next t := ⟨_, rfl⟩
theorem witness_UnreadRegistersHaveNoEffect : (0 : Reg) ∉ registersRead (.shr 1 2) ∧
    (∃ t, exec (.shr 1 2) State.reset = .next t) ∧
    ∃ u, exec (.shr 1 2) (State.reset.setReg 0 (5 : Word 32)) = .next u :=
  ⟨by decide, ⟨_, rfl⟩, ⟨_, rfl⟩⟩
/-- A step that changes a register, and one that changes a cell. -/
theorem witness_OnlyDestinationsChange :
    nextHas (step (mk Config.standard [0xDA, 0x05, 0xE1] [] [])) (fun t => t.regVal 7 != 0) = true ∧
    nextHas (step (mk Config.standard [0xC0, 0x84, 0x02] [(1, 5), (2, 100)] [])) (fun t => t.cellVal 133 != 0) = true := by
  decide
theorem witness_ReadAfterWrite : let s := mk Config.standard [] [(2, 65535), (3, 5), (4, 65535)] []
    s.regVal 2 + (0 : BitVec 6).toNat < 65536 ∧ s.regVal 4 < 65536 ∧ ∃ t, exec (.write 3 0 2) s = .next t :=
  ⟨by decide, by decide, ⟨_, rfl⟩⟩
theorem witness_StepRunsDecodedInstruction : let s := State.construct Config.standard [0x00, 0x09]
    s.halt = none ∧ s.code.drop s.pc = 0x00 :: [0x09] ∧ decode 0x00 [0x09] = .ok (.shr 2 2, 2) := by decide
theorem witness_DecodeFailureHalts : let s := State.construct Config.standard [0xDA, 0x05]
    s.halt = none ∧ s.code.drop s.pc = 0xDA :: [0x05] ∧ decode 0xDA [0x05] = .error .truncated := by decide
/-- A step taken; at the end of the stream; at an unknown opcode; one byte short; exactly long enough. -/
theorem witness_TestsComeInOrder :
    nextHas (step (State.construct Config.standard [0x01])) (fun _ => true) = true ∧
    (let s := State.construct Config.standard []; s.halt = none ∧ s.code.length ≤ s.pc) ∧
    (let s := State.construct Config.standard [0x01]
     s.halt = none ∧ s.code[s.pc]? = some 0x01 ∧ Variant.ofOpcode ((0x01 : Byte).toNat % 128) = none) ∧
    (let s := State.construct Config.standard [0x40, 0x00]
     s.code[s.pc]? = some 0x40 ∧ (0x40 : Byte).toNat % 128 = Variant.write.opcode ∧
       s.code.length - s.pc < Variant.write.length) ∧
    (let s := State.construct Config.standard [0x40, 0x00, 0x00]
     s.code[s.pc]? = some 0x40 ∧ (0x40 : Byte).toNat % 128 = Variant.write.opcode ∧
       Variant.write.length ≤ s.code.length - s.pc) := by decide
theorem witness_HaltIsFinal : (State.reset.takeHalt .truncated).halt = some ⟨.truncated, 0⟩ ∧
    (State.reset.takeHalt .truncated).halt ≠ none := by decide
theorem witness_TerminalStatesStopByName : (State.reset.takeHalt .unknownOpcode).halt = some ⟨.unknownOpcode, 0⟩ ∧
    State.reset.halt = none ∧ State.reset.code.length ≤ State.reset.pc := by decide
theorem witness_ProgramCounterAdvances : (∃ t, exec (.load 1 0) State.reset = .next t) ∧
    (let s := State.construct Config.standard [0xFF]
     s.code.drop s.pc = 0xFF :: [] ∧ decode 0xFF [] = .error .unknownOpcode ∧ nextHas (step s) (fun _ => true) = true) :=
  ⟨⟨_, rfl⟩, by decide⟩
theorem witness_InstructionCounterCounts :
    nextHas (step (State.construct Config.standard [0x00, 0x00])) (fun t => t.halt == none) = true ∧
    nextHas (step (State.construct Config.standard [0x00])) (fun t => t.halt != none) = true := by decide
theorem witness_CodeStreamIsImmutable :
    nextHas (step (State.construct Config.standard [0xC0, 0x84, 0x02])) (fun _ => true) = true ∧
    ∃ t, exec (.write 1 33 2) State.reset = .next t := ⟨by decide, ⟨_, rfl⟩⟩
/-- With a cell listed, so that the canonical form says something. -/
theorem witness_StepKeepsInvariant : let s := mk Config.standard [0xC0, 0x84, 0x02] [(1, 5), (2, 100)] [(7, 1), (133, 2)]
    s.Inv ∧ nextHas (step s) (fun _ => true) = true := by decide
theorem witness_StepKeepsValueBound : let s := State.construct Config.standard [0xDA, 0xFF, 0xFF]
    s.Bounded ∧ nextHas (step s) (fun t => t.regVal 7 == 16383) = true := by
  refine ⟨⟨fun r => ?_, fun a => ?_⟩, by decide⟩
  · rw [State.construct_regVal]; exact Nat.zero_le _
  · rw [State.construct_cellVal]; exact Nat.zero_le _
theorem witness_ReachableStatesAreGood : ∃ t, Reachable Config.standard [0x5A, 0x00, 0x00] t ∧ t.status = .completed :=
  ⟨_, .step .reset (by rfl), by decide⟩
theorem witness_RecordsExecuteOnceInOrder : let s := State.construct Config.standard [0xDA, 0x05, 0xE1, 0x00, 0x09, 0xFF]
    s.halt = none ∧ s.code.drop s.pc = encodeProgram [.load 523 7, .shr 2 2] ++ [0xFF] := by decide

end Sys2Proof.Tests
end

section
/-! The run status and the code stream (10_state.md): O31 and O36. -/

namespace Sys2Proof.Machine

/-! ### The run status and when a step is enabled (R15, R74) -/

theorem State.status_eq_halted {s : State} {e : DecodeFailure} : s.status = .halted e ↔ ∃ o, s.halt = some ⟨e, o⟩ := by
  constructor
  · intro h
    cases hh : s.halt with
    | some r =>
      rw [State.status_of_halt hh] at h
      cases h
      exact ⟨r.offset, rfl⟩
    | none =>
      rcases Nat.lt_or_ge s.pc s.code.length with hlt | hge
      · rw [State.status_of_running hh hlt] at h; cases h
      · rw [State.status_of_completed hh hge] at h; cases h
  · rintro ⟨o, hh⟩
    exact State.status_of_halt hh

theorem State.status_eq_completed {s : State} :
    s.status = .completed ↔ s.halt = none ∧ s.code.length ≤ s.pc := by
  constructor
  · intro h
    cases hh : s.halt with
    | some r => rw [State.status_of_halt hh] at h; cases h
    | none =>
      refine ⟨rfl, Nat.le_of_not_lt fun hlt => ?_⟩
      rw [State.status_of_running hh hlt] at h
      cases h
  · rintro ⟨hh, hle⟩
    exact State.status_of_completed hh hle

/-- No instruction is left without a next state. -/
theorem exec_exists_next (i : Instr) (s : State) : ∃ t, exec i s = .next t := by
  cases i <;> exact ⟨_, rfl⟩

/-- Inside the code stream a machine that is not halted has a next state: the decoded instruction's, or the halt
entry. -/
theorem exists_step_next {s : State} (hh : s.halt = none) (hpc : s.pc < s.code.length) : ∃ t, step s = .next t := by
  have hf : s.fetch = s.code[s.pc] :: s.code.drop (s.pc + 1) := List.drop_eq_getElem_cons hpc
  rw [step_of_fetch hh hf]
  cases decode s.code[s.pc] (s.code.drop (s.pc + 1)) with
  | ok p => exact exec_exists_next p.1 s
  | error e => exact ⟨s.takeHalt e, rfl⟩

theorem exists_step_next_iff {s : State} : (∃ t, step s = .next t) ↔ s.status = .running := by
  rw [State.status_eq_running]
  constructor
  · rintro ⟨t, h⟩
    obtain ⟨hh, b0, rest, hf, -⟩ := step_next_cases h
    exact ⟨hh, (State.lt_of_fetch hf).1⟩
  · rintro ⟨hh, hpc⟩
    exact exists_step_next hh hpc

/-- Settles O31, from one characterisation per status and the step's own. -/
theorem statusDecidesStep : Obligations.StatusDecidesStep := fun _ =>
  ⟨State.status_eq_running, State.status_eq_completed, fun _ => State.status_eq_halted, exists_step_next_iff⟩

/-! ### The code stream (R17) -/

/-- No instruction writes the code stream. -/
theorem exec_next_code {i : Instr} {s t : State} (h : exec i s = .next t) : t.code = s.code := by
  cases i with
  | load c r => rw [exec_load] at h; cases h; rfl
  | read src dst =>
    by_cases ha : readAddress s src < 65536
    · rw [exec_read_of_lt dst ha] at h; cases h; rfl
    · rw [exec_read_of_not_lt dst ha] at h; cases h; rfl
  | write src off dst =>
    by_cases ha : writeAddress s off dst < 65536
    · rw [exec_write_of_lt src ha] at h; cases h; rfl
    · rw [exec_write_of_not_lt src ha] at h; cases h; rfl
  | shr src dst => rw [exec_shr] at h; cases h; rfl

theorem step_next_code {s t : State} (h : step s = .next t) : t.code = s.code := by
  obtain ⟨-, b0, rest, -, ⟨i, l, -, he⟩ | ⟨e, -, rfl⟩⟩ := step_next_cases h
  · exact exec_next_code he
  · exact State.takeHalt_code s e

/-- No instruction reads the code stream: with another one in its place, the address tests and the values stay the
same, and the next state carries that stream. -/
theorem exec_withCode {i : Instr} {s t : State} (code : List Byte) (h : exec i s = .next t) :
    exec i { s with code := code } = .next { t with code := code } := by
  cases i with
  | load c r => rw [exec_load] at h; cases h; rfl
  | read src dst =>
    by_cases ha : readAddress s src < 65536
    · rw [exec_read_of_lt dst ha] at h; cases h
      exact exec_read_of_lt (s := { s with code := code }) dst ha
    · rw [exec_read_of_not_lt dst ha] at h; cases h
      exact exec_read_of_not_lt (s := { s with code := code }) dst ha
  | write src off dst =>
    by_cases ha : writeAddress s off dst < 65536
    · rw [exec_write_of_lt src ha] at h; cases h
      exact exec_write_of_lt (s := { s with code := code }) src ha
    · rw [exec_write_of_not_lt src ha] at h; cases h
      exact exec_write_of_not_lt (s := { s with code := code }) src ha
  | shr src dst => rw [exec_shr] at h; cases h; rfl

/-- Settles O36: the step's cases leave the code stream, and each meaning commutes with replacing it. -/
theorem codeStreamIsImmutable : Obligations.CodeStreamIsImmutable :=
  ⟨fun _ _ => step_next_code, fun _ _ _ code => exec_withCode code⟩

end Sys2Proof.Machine
end

section
/-! The data memory's operations (20_memory.md): O26. -/

namespace Sys2Proof.Machine

/-- Settles O26, from the read-over-write rule of `Memory` and the value of every cell after reset. -/
theorem memoryPrimitives : Obligations.MemoryPrimitives :=
  ⟨fun _ m a b v => Memory.read_write m a v b, State.construct_cellVal⟩

end Sys2Proof.Machine
end

section
/-! The encoder's records, byte by byte (30_encoding.md sections 2 and 3): O3, O4 and O5. -/

namespace Sys2Proof

/-! ### Record lengths (R51) -/

@[simp] theorem littleEndian_length (n acc : Nat) : (littleEndian n acc).length = n := by
  induction n generalizing acc with
  | zero => rfl
  | succ n ih => rw [littleEndian, List.length_cons, ih]

@[simp] theorem encode_length (i : Instr) : (encode i).length = i.length := littleEndian_length _ _

/-- Settles O3: a record has its variant's length, which the table gives. -/
theorem recordLengths : Obligations.RecordLengths := by
  refine ⟨fun i => encode_length i, ?_, ?_, ?_, ?_⟩ <;> intros <;> simp

/-! ### The accumulator as a number (R52, R56) -/

theorem Instr.load_accumulator (const : BitVec 14) (reg : Reg) :
    (Instr.load const reg).accumulator = 90 + const.toNat * 2 ^ 7 + reg.val * 2 ^ 21 := rfl

theorem Instr.read_accumulator (src dst : Reg) :
    (Instr.read src dst).accumulator = 43 + src.val * 2 ^ 7 + dst.val * 2 ^ 10 := rfl

theorem Instr.write_accumulator (src : Reg) (offset : BitVec 6) (dst : Reg) :
    (Instr.write src offset dst).accumulator = 64 + src.val * 2 ^ 7 + offset.toNat * 2 ^ 10 + dst.val * 2 ^ 16 := rfl

theorem Instr.shr_accumulator (src dst : Reg) :
    (Instr.shr src dst).accumulator = 0 + src.val * 2 ^ 7 + dst.val * 2 ^ 10 := rfl

/-- The padding bits, those above the last field, are 0. -/
theorem Instr.accumulator_lt (i : Instr) : i.accumulator < 2 ^ i.variant.totalBits := by
  cases i with
  | load const reg =>
    show _ < 2 ^ 24
    rw [Instr.load_accumulator]; omega
  | read src dst =>
    show _ < 2 ^ 13
    rw [Instr.read_accumulator]; omega
  | write src offset dst =>
    show _ < 2 ^ 19
    rw [Instr.write_accumulator]; omega
  | shr src dst =>
    show _ < 2 ^ 13
    rw [Instr.shr_accumulator]; omega

/-! ### The record's bytes (R33) -/

theorem littleEndian_two (acc : Nat) : littleEndian 2 acc = [BitVec.ofNat 8 acc, BitVec.ofNat 8 (acc >>> 8)] := by
  simp [littleEndian, Nat.shiftRight_eq_div_pow]

theorem littleEndian_three (acc : Nat) :
    littleEndian 3 acc = [BitVec.ofNat 8 acc, BitVec.ofNat 8 (acc >>> 8), BitVec.ofNat 8 (acc >>> 16)] := by
  simp [littleEndian, Nat.shiftRight_eq_div_pow, Nat.div_div_eq_div_mul]

/-- The bytes of a 2-byte record. -/
theorem encode_of_length_two {i : Instr} (h : i.length = 2) :
    encode i = [BitVec.ofNat 8 i.accumulator, BitVec.ofNat 8 (i.accumulator >>> 8)] := by
  rw [encode, h, littleEndian_two]

/-- The bytes of a 3-byte record. -/
theorem encode_of_length_three {i : Instr} (h : i.length = 3) :
    encode i = [BitVec.ofNat 8 i.accumulator, BitVec.ofNat 8 (i.accumulator >>> 8),
      BitVec.ofNat 8 (i.accumulator >>> 16)] := by
  rw [encode, h, littleEndian_three]

/-- Two numbers with the same lowest 8 bits make the same byte. -/
theorem ofNat_byte_congr {a b : Nat} (h : a % 256 = b % 256) : BitVec.ofNat 8 a = BitVec.ofNat 8 b :=
  BitVec.eq_of_toNat_eq h

/-- The bytes of a 2-byte record, from the lowest 8 bits of each. -/
theorem encode_eq_of_length_two {i : Instr} {c0 c1 : Nat} (h : i.length = 2) (h0 : i.accumulator % 256 = c0 % 256)
    (h1 : i.accumulator / 2 ^ 8 % 256 = c1 % 256) : encode i = [BitVec.ofNat 8 c0, BitVec.ofNat 8 c1] := by
  rw [encode_of_length_two h, Nat.shiftRight_eq_div_pow, ofNat_byte_congr h0, ofNat_byte_congr h1]

/-- The bytes of a 3-byte record, from the lowest 8 bits of each. -/
theorem encode_eq_of_length_three {i : Instr} {c0 c1 c2 : Nat} (h : i.length = 3)
    (h0 : i.accumulator % 256 = c0 % 256) (h1 : i.accumulator / 2 ^ 8 % 256 = c1 % 256)
    (h2 : i.accumulator / 2 ^ 16 % 256 = c2 % 256) :
    encode i = [BitVec.ofNat 8 c0, BitVec.ofNat 8 c1, BitVec.ofNat 8 c2] := by
  rw [encode_of_length_three h, Nat.shiftRight_eq_div_pow, Nat.shiftRight_eq_div_pow, ofNat_byte_congr h0,
    ofNat_byte_congr h1, ofNat_byte_congr h2]

/-! ### The three formats (R53 to R55) -/

theorem encode_load (const : BitVec 14) (reg : Reg) : encode (.load const reg) =
    [BitVec.ofNat 8 (const.toNat % 2 * 128 + 90), BitVec.ofNat 8 (const.toNat / 2 % 256),
      BitVec.ofNat 8 (reg.val * 32 + const.toNat / 512)] := by
  apply encode_eq_of_length_three (Instr.load_length const reg) <;> rw [Instr.load_accumulator] <;> omega

theorem encode_read (src dst : Reg) : encode (.read src dst) =
    [BitVec.ofNat 8 (src.val % 2 * 128 + 43), BitVec.ofNat 8 (dst.val * 4 + src.val / 2)] := by
  apply encode_eq_of_length_two (Instr.read_length src dst) <;> rw [Instr.read_accumulator] <;> omega

theorem encode_shr (src dst : Reg) : encode (.shr src dst) =
    [BitVec.ofNat 8 (src.val % 2 * 128 + 0), BitVec.ofNat 8 (dst.val * 4 + src.val / 2)] := by
  apply encode_eq_of_length_two (Instr.shr_length src dst) <;> rw [Instr.shr_accumulator] <;> omega

theorem encode_write (src : Reg) (offset : BitVec 6) (dst : Reg) : encode (.write src offset dst) =
    [BitVec.ofNat 8 (src.val % 2 * 128 + 64), BitVec.ofNat 8 (offset.toNat * 4 + src.val / 2),
      BitVec.ofNat 8 dst.val] := by
  apply encode_eq_of_length_three (Instr.write_length src offset dst) <;> rw [Instr.write_accumulator] <;> omega

/-- Settles O4, one format after another. -/
theorem formatsByteByByte : Obligations.FormatsByteByByte := ⟨encode_load, encode_read, encode_shr, encode_write⟩

/-! ### The bitwise or of the shifted fields (R56) -/

/-- A field shifted past everything below it is or-ed in as it is added. -/
theorem or_shiftLeft_eq_add {low k : Nat} (h : low < 2 ^ k) (value : Nat) :
    low ||| value <<< k = low + value * 2 ^ k := by
  rw [Nat.or_comm, ← Nat.shiftLeft_add_eq_or_of_lt h, Nat.shiftLeft_eq, Nat.add_comm]

theorem Instr.load_accumulator_eq_or (const : BitVec 14) (reg : Reg) :
    90 ||| const.toNat <<< 7 ||| reg.val <<< 21 = (Instr.load const reg).accumulator := by
  rw [Instr.load_accumulator, or_shiftLeft_eq_add (k := 7) (by decide), or_shiftLeft_eq_add (k := 21) (by omega)]

theorem Instr.read_accumulator_eq_or (src dst : Reg) :
    43 ||| src.val <<< 7 ||| dst.val <<< 10 = (Instr.read src dst).accumulator := by
  rw [Instr.read_accumulator, or_shiftLeft_eq_add (k := 7) (by decide), or_shiftLeft_eq_add (k := 10) (by omega)]

theorem Instr.write_accumulator_eq_or (src : Reg) (offset : BitVec 6) (dst : Reg) :
    64 ||| src.val <<< 7 ||| offset.toNat <<< 10 ||| dst.val <<< 16 = (Instr.write src offset dst).accumulator := by
  rw [Instr.write_accumulator, or_shiftLeft_eq_add (k := 7) (by decide), or_shiftLeft_eq_add (k := 10) (by omega),
    or_shiftLeft_eq_add (k := 16) (by omega)]

theorem Instr.shr_accumulator_eq_or (src dst : Reg) :
    0 ||| src.val <<< 7 ||| dst.val <<< 10 = (Instr.shr src dst).accumulator := by
  rw [Instr.shr_accumulator, or_shiftLeft_eq_add (k := 7) (by decide), or_shiftLeft_eq_add (k := 10) (by omega)]

/-- Settles O5: each bitwise or is the accumulator, whose bytes and whose bound hold of every instruction. -/
theorem encoderPacksFields : Obligations.EncoderPacksFields := by
  refine ⟨fun const reg => ?_, fun src dst => ?_, fun src offset dst => ?_, fun src dst => ?_⟩
  · rw [Instr.load_accumulator_eq_or]
    exact ⟨encode_of_length_three (Instr.load_length const reg), Instr.accumulator_lt (.load const reg)⟩
  · rw [Instr.read_accumulator_eq_or]
    exact ⟨encode_of_length_two (Instr.read_length src dst), Instr.accumulator_lt (.read src dst)⟩
  · rw [Instr.write_accumulator_eq_or]
    exact ⟨encode_of_length_three (Instr.write_length src offset dst), Instr.accumulator_lt (.write src offset dst)⟩
  · rw [Instr.shr_accumulator_eq_or]
    exact ⟨encode_of_length_two (Instr.shr_length src dst), Instr.accumulator_lt (.shr src dst)⟩

end Sys2Proof
end

section
/-! The opcode's choice of the variant (30_encoding.md sections 1 and 4, 60_exceptions.md): O7 and O8. -/

namespace Sys2Proof

/-! ### What the first byte decides (R58, R59) -/

/-- The four opcodes are 0, 43, 64 and 90. -/
theorem Variant.exists_opcode_eq_iff {a : Nat} :
    (∃ v : Variant, v.opcode = a) ↔ a = 0 ∨ a = 43 ∨ a = 64 ∨ a = 90 := by
  constructor
  · rintro ⟨v, rfl⟩
    cases v <;> decide
  · rintro (rfl | rfl | rfl | rfl)
    · exact ⟨.shr, rfl⟩
    · exact ⟨.read, rfl⟩
    · exact ⟨.write, rfl⟩
    · exact ⟨.load, rfl⟩

theorem Variant.length_le_three (v : Variant) : v.length ≤ 3 := by cases v <;> decide

/-- A legal opcode with enough bytes decodes to its own variant. -/
theorem decode_of_opcode {v : Variant} {b0 : Byte} {rest : List Byte} (hv : v.opcode = opcodeField b0)
    (hl : v.length ≤ rest.length + 1) :
    decode b0 rest = .ok (v.build (accumulate ((b0 :: rest).take v.length)), v.length) := by
  rcases decode_cases b0 rest with ⟨w, hw, -, h⟩ | ⟨w, hw, hshort, -⟩ | ⟨hno, -⟩
  · rwa [Variant.opcode_injective (hv.trans hw.symm)]
  · rw [Variant.opcode_injective (hv.trans hw.symm)] at hl
    omega
  · exact absurd hv (hno v)

/-- The unknown opcode is decided by the first byte alone. -/
theorem decode_eq_unknownOpcode_iff {b0 : Byte} {rest : List Byte} :
    decode b0 rest = .error .unknownOpcode ↔ ¬ ∃ v : Variant, v.opcode = opcodeField b0 := by
  rcases decode_cases b0 rest with ⟨v, hv, -, h⟩ | ⟨v, hv, -, h⟩ | ⟨hno, h⟩
  · simpa [h] using ⟨v, hv⟩
  · simpa [h] using ⟨v, hv⟩
  · simpa [h] using hno

/-- The same with the opcodes as numbers. -/
theorem decode_eq_unknownOpcode_iff_opcode {b0 : Byte} {rest : List Byte} :
    decode b0 rest = .error .unknownOpcode ↔
      ¬ (b0.toNat % 128 = 0 ∨ b0.toNat % 128 = 43 ∨ b0.toNat % 128 = 64 ∨ b0.toNat % 128 = 90) := by
  rw [decode_eq_unknownOpcode_iff, Variant.exists_opcode_eq_iff, opcodeField]

/-! ### All-zero streams (R58) -/

theorem decode_zero_record (rest : List Byte) : decode 0 (0 :: rest) = .ok (.shr 0 0, 2) := by
  rw [decode_of_opcode (v := .shr) rfl (by simp), Variant.shr_length, List.take_succ_cons, List.take_succ_cons,
    List.take_zero]
  rfl

theorem encode_shr_zero : encode (.shr 0 0) = List.replicate 2 0 := by decide

theorem encodeProgram_replicate_shr_zero (k : Nat) :
    encodeProgram (List.replicate k (.shr 0 0)) = List.replicate (2 * k) 0 := by
  rw [encodeProgram, List.map_replicate, encode_shr_zero, List.flatten_replicate_replicate, Nat.mul_comm]

/-- Settles O7: each opcode's variant is built, and the zero record and stream are computed. -/
theorem opcodeSelectsVariant : Obligations.OpcodeSelectsVariant := by
  refine ⟨fun b0 b1 b2 rest => ?_, decode_zero_record, fun k => (encodeProgram_replicate_shr_zero k).symm⟩
  have decodesTo {v : Variant} (h : b0.toNat % 128 = v.opcode) :=
    decode_of_opcode (rest := b1 :: b2 :: rest) h.symm (by have := v.length_le_three; simp; omega)
  exact ⟨fun h => ⟨_, _, decodesTo (v := .shr) h⟩, fun h => ⟨_, _, decodesTo (v := .read) h⟩,
    fun h => ⟨_, _, _, decodesTo (v := .write) h⟩, fun h => ⟨_, _, decodesTo (v := .load) h⟩,
    decode_eq_unknownOpcode_iff_opcode.mpr⟩

end Sys2Proof

namespace Sys2Proof.Machine

/-! ### The halt at an unknown opcode (R121) -/

theorem State.fetch_of_getElem? {s : State} {b0 : Byte} (h : s.code[s.pc]? = some b0) :
    s.fetch = b0 :: s.code.drop (s.pc + 1) := by
  obtain ⟨hpc, rfl⟩ := List.getElem?_eq_some_iff.mp h
  exact List.drop_eq_getElem_cons hpc

/-- A step of a machine that stands at a record it cannot decode is the halt entry. -/
theorem step_of_decode_error {s : State} {b0 : Byte} {rest : List Byte} {e : DecodeFailure} (hh : s.halt = none)
    (hf : s.fetch = b0 :: rest) (hd : decode b0 rest = .error e) : step s = .next (s.takeHalt e) := by
  rw [step_of_fetch hh hf, hd]

/-- Settles O8: the decoder's answer by the first byte, and the halt entry it leads to. -/
theorem unknownOpcodeHalts : Obligations.UnknownOpcodeHalts := by
  refine ⟨fun b0 rest => decode_eq_unknownOpcode_iff_opcode, fun b0 b1 b2 rest h => ?_, fun s b0 hh hb h => ?_⟩
  · obtain ⟨v, hv⟩ := Variant.exists_opcode_eq_iff.mpr h
    exact ⟨_, _, decode_of_opcode hv (by have := v.length_le_three; simp; omega)⟩
  · exact step_of_decode_error hh (State.fetch_of_getElem? hb) (decode_eq_unknownOpcode_iff_opcode.mpr h)

end Sys2Proof.Machine
end

section
/-! The truncated record and the advance of the program counter (40_fetch_decode_execute.md): O9 and O34. -/

namespace Sys2Proof

/-! ### When the decoder answers `Truncated` (R71) -/

/-- A record is truncated exactly when its opcode's variant needs more bytes than there are. -/
theorem decode_eq_truncated_iff {b0 : Byte} {rest : List Byte} :
    decode b0 rest = .error .truncated ↔ ∃ v : Variant, v.opcode = opcodeField b0 ∧ rest.length + 1 < v.length := by
  constructor
  · intro h
    rcases decode_cases b0 rest with ⟨v, -, -, e⟩ | ⟨v, hv, hshort, -⟩ | ⟨-, e⟩
    · rw [e] at h; cases h
    · exact ⟨v, hv, hshort⟩
    · rw [e] at h; cases h
  · rintro ⟨v, hv, hshort⟩
    simp [decode, Variant.ofOpcode_eq_some.mpr hv, hshort]

/-- The opcodes 0 and 43 have a 2-byte record, 64 and 90 a 3-byte record. -/
theorem Variant.exists_opcode_eq_and_lt_length_iff {a n : Nat} :
    (∃ v : Variant, v.opcode = a ∧ n < v.length) ↔ ((a = 0 ∨ a = 43) ∧ n < 2) ∨ ((a = 64 ∨ a = 90) ∧ n < 3) := by
  constructor
  · rintro ⟨v, rfl, hn⟩
    cases v with
    | load => exact .inr ⟨.inr rfl, hn⟩
    | read => exact .inl ⟨.inr rfl, hn⟩
    | write => exact .inr ⟨.inl rfl, hn⟩
    | shr => exact .inl ⟨.inl rfl, hn⟩
  · rintro (⟨rfl | rfl, hn⟩ | ⟨rfl | rfl, hn⟩)
    · exact ⟨.shr, rfl, hn⟩
    · exact ⟨.read, rfl, hn⟩
    · exact ⟨.write, rfl, hn⟩
    · exact ⟨.load, rfl, hn⟩

/-- The same with the opcodes and the lengths as numbers. -/
theorem decode_eq_truncated_iff_opcode {b0 : Byte} {rest : List Byte} :
    decode b0 rest = .error .truncated ↔
      ((b0.toNat % 128 = 0 ∨ b0.toNat % 128 = 43) ∧ 1 + rest.length < 2) ∨
      ((b0.toNat % 128 = 64 ∨ b0.toNat % 128 = 90) ∧ 1 + rest.length < 3) := by
  rw [decode_eq_truncated_iff, Variant.exists_opcode_eq_and_lt_length_iff, opcodeField, Nat.add_comm]

end Sys2Proof

namespace Sys2Proof.Machine

/-- Settles O9: the decoder's answer by opcode and length, and the halt entry it leads to, where the bytes left number
`CODE_LEN - pc`. -/
theorem truncatedExactlyWhenShort : Obligations.TruncatedExactlyWhenShort := by
  refine ⟨fun b0 rest => decode_eq_truncated_iff_opcode, fun s b0 hh hb h => ?_⟩
  have hf := State.fetch_of_getElem? hb
  have hleft : s.code.length - s.pc = 1 + (s.code.drop (s.pc + 1)).length := by
    rw [← State.fetch_length, hf, List.length_cons, Nat.add_comm]
  rw [hleft] at h
  exact step_of_decode_error hh hf (decode_eq_truncated_iff_opcode.mpr h)

/-! ### The advance of the program counter (R75) -/

/-- Everything an instruction can do: it replaces one register, one existing cell or nothing, and retires with its own
record length. -/
theorem exec_next_cases {i : Instr} {s t : State} (h : exec i s = .next t) :
    (∃ r v, t = (s.setReg r v).retire i.length) ∨
    (∃ a v, a < 65536 ∧ t = (s.memWrite a v).retire i.length) ∨
    t = s.retire i.length := by
  cases i with
  | load c r => rw [exec_load] at h; cases h; rw [Instr.load_length]; exact .inl ⟨_, _, rfl⟩
  | read src dst =>
    rw [Instr.read_length]
    by_cases ha : readAddress s src < 65536
    · rw [exec_read_of_lt dst ha] at h; cases h; exact .inl ⟨_, _, rfl⟩
    · rw [exec_read_of_not_lt dst ha] at h; cases h; exact .inr (.inr rfl)
  | write src off dst =>
    rw [Instr.write_length]
    by_cases ha : writeAddress s off dst < 65536
    · rw [exec_write_of_lt src ha] at h; cases h; exact .inr (.inl ⟨_, _, ha, rfl⟩)
    · rw [exec_write_of_not_lt src ha] at h; cases h; exact .inr (.inr rfl)
  | shr src dst => rw [exec_shr] at h; cases h; rw [Instr.shr_length]; exact .inl ⟨_, _, rfl⟩

/-- An executed instruction advances the program counter by its own record length. -/
theorem exec_next_pc {i : Instr} {s t : State} (h : exec i s = .next t) : t.pc = s.pc + i.length := by
  rcases exec_next_cases h with ⟨r, v, rfl⟩ | ⟨a, v, -, rfl⟩ | rfl <;> simp

theorem step_next_pc_le {s t : State} (h : step s = .next t) : s.pc ≤ t.pc := by
  obtain ⟨-, b0, rest, -, ⟨i, l, -, he⟩ | ⟨e, -, rfl⟩⟩ := step_next_cases h
  · rw [exec_next_pc he]; exact Nat.le_add_right _ _
  · rw [State.takeHalt_pc]

/-- A step at a record that does not decode is the halt entry. -/
theorem step_next_eq_takeHalt {s t : State} {b0 : Byte} {rest : List Byte} {e : DecodeFailure}
    (hf : s.fetch = b0 :: rest) (hd : decode b0 rest = .error e) (h : step s = .next t) : t = s.takeHalt e := by
  obtain ⟨hh, -⟩ := step_next_cases h
  rw [step_of_decode_error hh hf hd] at h
  exact (Host.Outcome.next.inj h).symm

/-- Settles O34: the record lengths are 3, 2, 3 and 2, a failed decode is the halt entry, and a step is one of the
two. -/
theorem programCounterAdvances : Obligations.ProgramCounterAdvances := by
  refine ⟨fun s t i h => ?_, fun s t b0 rest e hf hd h => ?_, fun s t => step_next_pc_le⟩
  · rw [exec_next_pc h]
    cases i <;> simp
  · rw [step_next_eq_takeHalt hf hd h, State.takeHalt_pc]

end Sys2Proof.Machine
end

section
/-! The load-immediate instruction (41_load_immediate.md): O13. -/

namespace Sys2Proof.Machine

/-- Settles O13: the next state is a register write of the immediate and a retirement; the register write decides the
registers, and neither operation touches a cell or the halt record. -/
theorem loadPutsConstant : Obligations.LoadPutsConstant := by
  intro s const reg
  refine ⟨_, exec_load const reg s, ?written, fun q hq => ?otherRegister, fun a => ?cell, rfl, rfl, rfl, rfl, rfl⟩
  case written => rw [State.retire_regVal, State.setReg_regVal, if_pos rfl, immediate_toNat]
  case otherRegister => rw [State.retire_regVal, State.setReg_regVal, if_neg hq]
  case cell => rw [State.retire_cellVal, State.setReg_cellVal]

end Sys2Proof.Machine
end

section
/-! The memory-access instructions (42_memory_access.md): O14. -/

namespace Sys2Proof.Machine

/-- Settles O14, by the range test on `x[src]`: in range, the next state is a register write of the addressed cell and a
retirement; out of range, a retirement alone. -/
theorem readLoadsCell : Obligations.ReadLoadsCell := by
  intro s src dst
  by_cases ha : s.regVal src < 65536
  case pos =>
    refine ⟨_, exec_read_of_lt dst ha, ?loaded, fun q hq => ?otherRegister, fun a => ?cell, rfl, rfl, rfl, rfl, rfl⟩
    case loaded => rw [State.retire_regVal, State.setReg_regVal, if_pos rfl, if_pos ha, memRead_toNat, readAddress]
    case otherRegister => rw [State.retire_regVal, State.setReg_regVal, if_neg hq]
    case cell => rw [State.retire_cellVal, State.setReg_cellVal]
  case neg =>
    refine ⟨_, exec_read_of_not_lt dst ha, ?unchanged, fun q _ => State.retire_regVal s 2 q, State.retire_cellVal s 2,
      rfl, rfl, rfl, rfl, rfl⟩
    case unchanged => rw [State.retire_regVal, if_neg ha]

end Sys2Proof.Machine
end

section
/-! The shift instruction and the ALU's shift (43_shift.md): O18 and O16. -/

namespace Sys2Proof.Machine

theorem shrN_toNat_of_lt {n : Nat} (v : Word n) {a : Nat} (h : a < n) : (shrN v a).toNat = v.toNat / 2 ^ a := by
  rw [shrN_toNat, if_pos h]

theorem shrN_toNat_of_le {n : Nat} (v : Word n) {a : Nat} (h : n ≤ a) : (shrN v a).toNat = 0 := by
  rw [shrN_toNat, if_neg (Nat.not_lt.mpr h)]

/-- An amount of the width or more shifts every bit out, so the saturated result is the quotient's own value. -/
theorem word_div_two_pow_of_le {n : Nat} (v : Word n) {a : Nat} (h : n ≤ a) : v.toNat / 2 ^ a = 0 :=
  Nat.div_eq_of_lt (BitVec.toNat_lt_twoPow_of_le h)

/-- Settles O18: the shift's two arms, the quotient's value in the second, and the bound of `shrN_le`. -/
theorem shiftFunction : Obligations.ShiftFunction := fun _ v a =>
  ⟨shrN_toNat_of_lt v, fun h => ⟨shrN_toNat_of_le v h, word_div_two_pow_of_le v h⟩, shrN_le v a⟩

/-- Settles O16: the next state is a register write of the shifted value, made from the registers before the write, and
a retirement; the register write decides the registers, and neither operation touches a cell or the halt record. -/
theorem shrShiftsRight : Obligations.ShrShiftsRight := by
  intro s src dst
  refine ⟨_, exec_shr src dst s, ?shifted, fun q hq => ?otherRegister, fun a => ?cell, rfl, rfl, rfl, rfl, rfl⟩
  case shifted => rw [State.retire_regVal, State.setReg_regVal, if_pos rfl, shrN_toNat, reg_toNat, shiftAmount]
  case otherRegister => rw [State.retire_regVal, State.setReg_regVal, if_neg hq]
  case cell => rw [State.retire_cellVal, State.setReg_cellVal]

end Sys2Proof.Machine
end

section
/-! Exceptions (60_exceptions.md): O21, O32, O29 and O30. -/

namespace Sys2Proof.Machine

/-! ### What an executed instruction raises, and what follows a halt (R123, R127) -/

/-- No instruction writes the halt record. -/
theorem exec_next_halt {i : Instr} {s t : State} (h : exec i s = .next t) : t.halt = s.halt := by
  rcases exec_next_cases h with ⟨r, v, rfl⟩ | ⟨a, v, -, rfl⟩ | rfl <;> rfl

/-- Settles O21: a next state always exists, and none of its forms touches the halt record. -/
theorem executedInstructionsComplete : Obligations.ExecutedInstructionsComplete := by
  intro i s
  obtain ⟨t, ht⟩ := exec_exists_next i s
  exact ⟨t, ht, exec_next_halt ht⟩

/-- A halted machine has no next state. -/
theorem step_ne_next_of_halt {s : State} {h : HaltRecord} (e : s.halt = some h) (t : State) : step s ≠ .next t := by
  rw [step_of_halt e]
  exact nofun

/-- Settles O32: a halted machine has no next state, so any number of steps leaves it as it is. -/
theorem haltIsFinal : Obligations.HaltIsFinal := by
  refine ⟨fun s t h e => step_ne_next_of_halt e t, fun s k hh => ?_⟩
  obtain ⟨h, e⟩ := Option.ne_none_iff_exists'.mp hh
  exact runFor_of_no_next (step_ne_next_of_halt e) k

/-- Settles O29: the step is the halt entry, whose record decides the status and that no step follows. -/
theorem decodeFailureHalts : Obligations.DecodeFailureHalts := fun s _ _ e hh hf hd =>
  have hrec := State.takeHalt_halt s e
  ⟨s.takeHalt e, step_of_decode_error hh hf hd, rfl, State.status_of_halt hrec, step_ne_next_of_halt hrec⟩

/-! ### The order of the tests (R125) -/

/-- The bytes left from an offset inside the stream on are the one there and those after it. -/
theorem State.bytesLeft_of_getElem? {s : State} {b0 : Byte} (hb : s.code[s.pc]? = some b0) :
    s.code.length - s.pc = (s.code.drop (s.pc + 1)).length + 1 := by
  rw [← State.fetch_length, State.fetch_of_getElem? hb, List.length_cons]

/-- At an unknown opcode, however few bytes are left, the step records `UnknownOpcode`. -/
theorem step_of_unknown_opcode {s : State} {b0 : Byte} (hh : s.halt = none) (hb : s.code[s.pc]? = some b0)
    (hno : Variant.ofOpcode (opcodeField b0) = none) : step s = .next (s.takeHalt .unknownOpcode) :=
  step_of_decode_error hh (State.fetch_of_getElem? hb) <| decode_eq_unknownOpcode_iff.mpr <|
    not_exists.mpr (Variant.ofOpcode_eq_none.mp hno)

/-- At a known opcode with fewer bytes left than its record has, the step records `Truncated`. -/
theorem step_of_short_record {s : State} {b0 : Byte} {v : Variant} (hh : s.halt = none)
    (hb : s.code[s.pc]? = some b0) (hv : v.opcode = opcodeField b0) (hshort : s.code.length - s.pc < v.length) :
    step s = .next (s.takeHalt .truncated) := by
  rw [State.bytesLeft_of_getElem? hb] at hshort
  exact step_of_decode_error hh (State.fetch_of_getElem? hb) (decode_eq_truncated_iff.mpr ⟨v, hv, hshort⟩)

/-- A step of a machine that stands at a record it can decode is the decoded instruction. -/
theorem step_of_decode_ok {s : State} {b0 : Byte} {rest : List Byte} {i : Instr} {l : Nat} (hh : s.halt = none)
    (hf : s.fetch = b0 :: rest) (hd : decode b0 rest = .ok (i, l)) : step s = exec i s := by
  rw [step_of_fetch hh hf, hd]

/-- At a known opcode with all the bytes of its record left, the step executes an instruction of that variant. -/
theorem step_of_whole_record {s : State} {b0 : Byte} {v : Variant} (hh : s.halt = none)
    (hb : s.code[s.pc]? = some b0) (hv : v.opcode = opcodeField b0) (hlen : v.length ≤ s.code.length - s.pc) :
    ∃ i : Instr, i.variant = v ∧ step s = exec i s := by
  rw [State.bytesLeft_of_getElem? hb] at hlen
  exact ⟨_, Variant.build_variant v _, step_of_decode_ok hh (State.fetch_of_getElem? hb) (decode_of_opcode hv hlen)⟩

/-- Settles O30: one rule per test, in R125's order, and an executed instruction raises nothing. -/
theorem testsComeInOrder : Obligations.TestsComeInOrder := by
  refine ⟨fun s t h => (step_next_cases h).1, fun s hh => ⟨fun hend => ?atEnd, fun b0 hb => ⟨fun hno => ?unknown,
    fun v hv => ⟨fun hshort => ?short, fun hlen => ?whole⟩⟩⟩⟩
  case atEnd => exact ⟨State.status_of_completed hh hend, by rw [step_of_end hh hend]; exact fun _ => nofun⟩
  case unknown => exact step_of_unknown_opcode hh hb hno
  case short => exact step_of_short_record hh hb hv.symm hshort
  case whole =>
    obtain ⟨i, hvar, hstep⟩ := step_of_whole_record hh hb hv.symm hlen
    obtain ⟨t, ht⟩ := exec_exists_next i s
    exact ⟨i, t, hvar, hstep, ht, (exec_next_halt ht).trans hh⟩

end Sys2Proof.Machine
end

section
/-! Decoding and encoding as inverses, the padding bits, and the operand check (30_encoding.md sections 3 and 4,
40_fetch_decode_execute.md section 1): O1, O2, O10, O6, O11 and O12. -/

namespace Sys2Proof

/-! ### Bytes and accumulators (R33, R52) -/

theorem accumulate_littleEndian (n acc : Nat) : accumulate (littleEndian n acc) = acc % 256 ^ n := by
  induction n generalizing acc with
  | zero => rw [littleEndian, accumulate, pow_zero, Nat.mod_one]
  | succ n ih => rw [littleEndian, accumulate, ih, BitVec.toNat_ofNat, Nat.pow_succ' (m := 256)]; exact Nat.mod_mul.symm

theorem littleEndian_accumulate (bs : List Byte) : littleEndian bs.length (accumulate bs) = bs := by
  induction bs with
  | nil => rfl
  | cons b bs ih =>
    have hlow : BitVec.ofNat 8 (b.toNat + 256 * accumulate bs) = b := BitVec.eq_of_toNat_eq (by simp; omega)
    have hhigh : (b.toNat + 256 * accumulate bs) / 256 = accumulate bs := by omega
    rw [List.length_cons, accumulate, littleEndian, hlow, hhigh, ih]

theorem accumulate_lt (bs : List Byte) : accumulate bs < 256 ^ bs.length := by
  rw [← littleEndian_accumulate bs, accumulate_littleEndian, littleEndian_length]
  exact Nat.mod_lt _ (by positivity)

/-- Accumulators that fit into `n` bytes are determined by them. -/
theorem littleEndian_inj {n a b : Nat} (ha : a < 256 ^ n) (hb : b < 256 ^ n) :
    littleEndian n a = littleEndian n b ↔ a = b := by
  refine ⟨fun h => ?_, congrArg _⟩
  have := congrArg accumulate h
  rwa [accumulate_littleEndian, accumulate_littleEndian, Nat.mod_eq_of_lt ha, Nat.mod_eq_of_lt hb] at this

/-- The two bytes of a short record; a missing one counts 0. -/
theorem accumulate_take_two (b0 : Byte) (rest : List Byte) :
    accumulate ((b0 :: rest).take 2) = b0.toNat + 256 * (rest.getD 0 0).toNat := by
  cases rest <;> simp [accumulate]

/-- The three bytes of a long record; a missing one counts 0. -/
theorem accumulate_take_three (b0 : Byte) (rest : List Byte) :
    accumulate ((b0 :: rest).take 3) =
      b0.toNat + 256 * (rest.getD 0 0).toNat + 65536 * (rest.getD 1 0).toNat := by
  match rest with
  | [] => simp [accumulate]
  | [b1] => simp [accumulate]
  | b1 :: b2 :: _ => simp [accumulate]; omega

/-! ### The bits of a record (R52, R56, R57) -/

/-- The fields of a record lie in its bytes. -/
theorem Variant.two_pow_totalBits_le (v : Variant) : 2 ^ v.totalBits ≤ 256 ^ v.length := by cases v <;> decide

theorem Instr.accumulator_lt_bytes (i : Instr) : i.accumulator < 256 ^ i.length :=
  i.accumulator_lt.trans_le i.variant.two_pow_totalBits_le

theorem accumulate_encode (i : Instr) : accumulate (encode i) = i.accumulator := by
  rw [encode, accumulate_littleEndian, Nat.mod_eq_of_lt i.accumulator_lt_bytes]

/-- The opcode field of an encoded record. -/
theorem Instr.accumulator_mod (i : Instr) : i.accumulator % 128 = i.variant.opcode := by
  cases i with
  | load const reg => rw [Instr.load_accumulator]; show _ = 90; omega
  | read src dst => rw [Instr.read_accumulator]; show _ = 43; omega
  | write src offset dst => rw [Instr.write_accumulator]; show _ = 64; omega
  | shr src dst => rw [Instr.shr_accumulator]; show _ = 0; omega

/-- The opcode field of the first byte is that of the accumulator. -/
theorem opcodeField_eq_accumulate_mod (b0 : Byte) (tail : List Byte) :
    opcodeField b0 = accumulate (b0 :: tail) % 128 := by
  rw [opcodeField, accumulate]; omega

theorem opcodeField_eq_accumulate_take_mod (v : Variant) (b0 : Byte) (rest : List Byte) :
    opcodeField b0 = accumulate ((b0 :: rest).take v.length) % 128 := by
  have hpos : v.length = v.length - 1 + 1 := by cases v <;> rfl
  rw [hpos, List.take_succ_cons]
  exact opcodeField_eq_accumulate_mod b0 _

/-- The extractor recovers what the encoder placed: every operand is its field of the accumulator. -/
theorem Variant.build_accumulator (i : Instr) : i.variant.build i.accumulator = i := by
  cases i with
  | load const reg =>
    rw [Instr.load_accumulator]
    simp only [Instr.variant, Variant.build, Variant.extract, load_const, load_reg, Instr.load.injEq]
    exact ⟨BitVec.eq_of_toNat_eq (by simp; omega), Fin.ext (by simp; omega)⟩
  | read src dst =>
    rw [Instr.read_accumulator]
    simp only [Instr.variant, Variant.build, Variant.extract, read_src, read_dst, Instr.read.injEq]
    exact ⟨Fin.ext (by simp; omega), Fin.ext (by simp; omega)⟩
  | write src offset dst =>
    rw [Instr.write_accumulator]
    simp only [Instr.variant, Variant.build, Variant.extract, write_src, write_offset, write_dst, Instr.write.injEq]
    exact ⟨Fin.ext (by simp; omega), BitVec.eq_of_toNat_eq (by simp; omega), Fin.ext (by simp; omega)⟩
  | shr src dst =>
    rw [Instr.shr_accumulator]
    simp only [Instr.variant, Variant.build, Variant.extract, shr_src, shr_dst, Instr.shr.injEq]
    exact ⟨Fin.ext (by simp; omega), Fin.ext (by simp; omega)⟩

/-- The encoder recovers what the extractor read: every record bit but the padding. -/
theorem Variant.accumulator_build {v : Variant} {acc : Nat} (h : v.opcode = acc % 128) :
    (v.build acc).accumulator = acc % 2 ^ v.totalBits := by
  cases v with
  | load =>
    show 90 + acc / 2 ^ 7 % 2 ^ 14 % 2 ^ 14 * 2 ^ 7 + acc / 2 ^ 21 % 2 ^ 3 % 8 * 2 ^ 21 = acc % 2 ^ 24
    change 90 = _ at h
    omega
  | read =>
    show 43 + acc / 2 ^ 7 % 2 ^ 3 % 8 * 2 ^ 7 + acc / 2 ^ 10 % 2 ^ 3 % 8 * 2 ^ 10 = acc % 2 ^ 13
    change 43 = _ at h
    omega
  | write =>
    show 64 + acc / 2 ^ 7 % 2 ^ 3 % 8 * 2 ^ 7 + acc / 2 ^ 10 % 2 ^ 6 % 2 ^ 6 * 2 ^ 10
      + acc / 2 ^ 16 % 2 ^ 3 % 8 * 2 ^ 16 = acc % 2 ^ 19
    change 64 = _ at h
    omega
  | shr =>
    show 0 + acc / 2 ^ 7 % 2 ^ 3 % 8 * 2 ^ 7 + acc / 2 ^ 10 % 2 ^ 3 % 8 * 2 ^ 10 = acc % 2 ^ 13
    change 0 = _ at h
    omega

/-! ### Decoding an encoded instruction -/

theorem decode_encode_append {i : Instr} {b0 : Byte} {tail : List Byte} (h : encode i = b0 :: tail)
    (rest : List Byte) : decode b0 (tail ++ rest) = .ok (i, i.length) := by
  have hlen : i.variant.length = (b0 :: tail).length := by rw [← h, encode_length]; rfl
  have hop : i.variant.opcode = opcodeField b0 := by
    rw [opcodeField_eq_accumulate_mod b0 tail, ← h, accumulate_encode, Instr.accumulator_mod]
  have htake : (b0 :: (tail ++ rest)).take i.variant.length = encode i := by
    rw [hlen, ← List.cons_append, List.take_left, h]
  rw [decode_of_opcode hop (by rw [hlen]; simp), htake, accumulate_encode, Variant.build_accumulator]
  rfl

theorem encode_eq_cons (i : Instr) : ∃ b0 tail, encode i = b0 :: tail := by
  refine List.exists_cons_of_length_pos ?_
  rw [encode_length]
  cases i <;> simp

/-- Settles O1: an encoded record starts with its opcode, and the extractor undoes the encoder's placing. -/
theorem decodeOfEncodeIsIdentity : Obligations.DecodeOfEncodeIsIdentity := fun i rest =>
  have ⟨b0, tail, h⟩ := encode_eq_cons i
  ⟨b0, tail, h, encode_length i, decode_encode_append h rest⟩

/-! ### Re-encoding a decoded record -/

/-- A decoded instruction is built from its record's accumulator, at whose opcode it stands. -/
theorem decode_eq_ok {b0 : Byte} {rest : List Byte} {i : Instr} {l : Nat} (h : decode b0 rest = .ok (i, l)) :
    ∃ v : Variant, v.opcode = opcodeField b0 ∧ v.length ≤ rest.length + 1 ∧ l = v.length ∧
      i = v.build (accumulate ((b0 :: rest).take v.length)) := by
  rcases decode_cases b0 rest with ⟨v, hv, hl, e⟩ | ⟨v, -, -, e⟩ | ⟨-, e⟩
  · rw [e] at h
    cases h
    exact ⟨v, hv, hl, rfl, rfl⟩
  · rw [e] at h; cases h
  · rw [e] at h; cases h

/-- A record is re-encoded as it was exactly when no bit above its last field is set. -/
theorem Variant.encode_build_eq_iff {v : Variant} {record : List Byte} (hlen : record.length = v.length)
    (hop : v.opcode = accumulate record % 128) :
    encode (v.build (accumulate record)) = record ↔ accumulate record / 2 ^ v.totalBits = 0 := by
  have hlt : accumulate record < 256 ^ v.length := hlen ▸ accumulate_lt record
  calc encode (v.build (accumulate record)) = record
    _ ↔ littleEndian v.length (accumulate record % 2 ^ v.totalBits) = littleEndian v.length (accumulate record) := by
        rw [encode, Instr.length, Variant.build_variant, Variant.accumulator_build hop, ← hlen, littleEndian_accumulate]
    _ ↔ accumulate record % 2 ^ v.totalBits = accumulate record :=
        littleEndian_inj ((Nat.mod_le _ _).trans_lt hlt) hlt
    _ ↔ accumulate record / 2 ^ v.totalBits = 0 := by
        rw [Nat.mod_eq_iff_lt (by positivity), Nat.div_eq_zero_iff_lt (by positivity)]

/-- Settles O2: the bits above the last field are those from 2^13, 2^19 or 2^24 on, and a `Load` record has none. -/
theorem encodeOfDecodeIffPaddingZero : Obligations.EncodeOfDecodeIffPaddingZero := by
  intro b0 rest i l h
  obtain ⟨v, hop, hl, rfl, rfl⟩ := decode_eq_ok h
  have hlen : ((b0 :: rest).take v.length).length = v.length := by simp; omega
  rw [Variant.encode_build_eq_iff hlen (hop.trans (opcodeField_eq_accumulate_take_mod v b0 rest))]
  cases v with
  | load =>
    have hlt := accumulate_lt ((b0 :: rest).take 3)
    rw [show ((b0 :: rest).take 3).length = 3 from hlen] at hlt
    exact iff_true_intro (Nat.div_eq_of_lt hlt)
  | read => exact Iff.rfl
  | write => exact Iff.rfl
  | shr => exact Iff.rfl

/-! ### Padding bits (R60, D5) -/

/-- What a record decodes to is decided by the bits up to its last field. -/
theorem Variant.build_congr {v : Variant} {acc acc' : Nat} (hop : v.opcode = acc % 128) (hop' : v.opcode = acc' % 128)
    (h : acc % 2 ^ v.totalBits = acc' % 2 ^ v.totalBits) : v.build acc = v.build acc' := by
  have hacc := (Variant.accumulator_build hop).trans (h.trans (Variant.accumulator_build hop').symm)
  rw [← Variant.build_accumulator (v.build acc), ← Variant.build_accumulator (v.build acc'), hacc,
    Variant.build_variant, Variant.build_variant]

/-- Two records with the same first byte decode alike when they agree in the bits up to the last field. -/
theorem decode_congr {v : Variant} {b0 : Byte} {rest rest' : List Byte} (hv : v.opcode = opcodeField b0)
    (hl : v.length ≤ rest.length + 1) (hl' : v.length ≤ rest'.length + 1)
    (h : accumulate ((b0 :: rest).take v.length) % 2 ^ v.totalBits =
      accumulate ((b0 :: rest').take v.length) % 2 ^ v.totalBits) : decode b0 rest = decode b0 rest' := by
  rw [decode_of_opcode hv hl, decode_of_opcode hv hl',
    Variant.build_congr (hv.trans (opcodeField_eq_accumulate_take_mod v b0 rest))
      (hv.trans (opcodeField_eq_accumulate_take_mod v b0 rest')) h]

/-- Settles O10: the last bytes agree in the bits below the padding, so the records agree up to their last fields. -/
theorem paddingBitsAreIgnored : Obligations.PaddingBitsAreIgnored := by
  refine ⟨fun b0 b1 c1 rest hop h => ?_, fun b0 b1 b2 c2 rest hop h => ?_⟩
  · have hacc : accumulate ((b0 :: b1 :: rest).take 2) % 2 ^ 13 = accumulate ((b0 :: c1 :: rest).take 2) % 2 ^ 13 := by
      rw [accumulate_take_two, accumulate_take_two, List.getD_cons_zero, List.getD_cons_zero]
      omega
    rcases hop with hop | hop
    · exact decode_congr (v := .read) hop.symm (by simp) (by simp) hacc
    · exact decode_congr (v := .shr) hop.symm (by simp) (by simp) hacc
  · refine decode_congr (v := .write) hop.symm (by simp) (by simp) ?_
    show accumulate ((b0 :: b1 :: b2 :: rest).take 3) % 2 ^ 19 = accumulate ((b0 :: b1 :: c2 :: rest).take 3) % 2 ^ 19
    rw [accumulate_take_three, accumulate_take_three]
    simp only [List.getD_cons_zero, List.getD_cons_succ]
    omega

/-! ### The decoder in the spec's masks and shifts (R57, R70 to R72) -/

theorem opcodeField_eq_and (b0 : Byte) : opcodeField b0 = b0.toNat &&& 0x7F :=
  (Nat.and_two_pow_sub_one_eq_mod b0.toNat 7).symm

theorem Variant.extract_eq_and (v : Variant) (f : Field) (acc : Nat) :
    v.extract f acc = acc >>> (v.span f).1 &&& (2 ^ (v.span f).2 - 1) := by
  rw [Variant.extract, Nat.shiftRight_eq_div_pow, Nat.and_two_pow_sub_one_eq_mod]

/-- Settles O6: each of the decoder's answers is the pseudocode's, whose tests the first byte's variant decides. -/
theorem decoderIsThePseudocode : Obligations.DecoderIsThePseudocode := by
  intro code pc b0 hb
  obtain ⟨hpc, -⟩ := List.getElem?_eq_some_iff.mp hb
  have hleft : code.length - pc = (code.drop (pc + 1)).length + 1 := by rw [List.length_drop]; omega
  have hb1 : code.getD (pc + 1) 0 = (code.drop (pc + 1)).getD 0 0 := by simp [List.getD_eq_getElem?_getD]
  have hb2 : code.getD (pc + 2) 0 = (code.drop (pc + 1)).getD 1 0 := by simp [List.getD_eq_getElem?_getD]
  rw [hleft, hb1, hb2, ← opcodeField_eq_and]
  generalize code.drop (pc + 1) = rest
  rcases decode_cases b0 rest with ⟨v, hv, hl, e⟩ | ⟨v, hv, hshort, e⟩ | ⟨hno, e⟩
  case inl =>
    rw [e, ← hv]
    cases v with
    | load =>
      rw [Variant.load_length] at hl ⊢
      rw [accumulate_take_three]
      simp [Variant.opcode, Variant.build, Variant.extract_eq_and, Nat.not_lt.mpr hl]
    | read =>
      rw [Variant.read_length] at hl ⊢
      rw [accumulate_take_two]
      simp [Variant.opcode, Variant.build, Variant.extract_eq_and, Nat.not_lt.mpr hl]
    | write =>
      rw [Variant.write_length] at hl ⊢
      rw [accumulate_take_three]
      simp [Variant.opcode, Variant.build, Variant.extract_eq_and, Nat.not_lt.mpr hl]
    | shr =>
      rw [Variant.shr_length] at hl ⊢
      rw [accumulate_take_two]
      simp [Variant.opcode, Variant.build, Variant.extract_eq_and, Nat.not_lt.mpr hl]
  case inr.inl =>
    rw [e, ← hv]
    cases v with
    | load => simp [Variant.opcode, show rest.length + 1 < 3 from hshort]
    | read => simp [Variant.opcode, show rest.length + 1 < 2 from hshort]
    | write => simp [Variant.opcode, show rest.length + 1 < 3 from hshort]
    | shr => simp [Variant.opcode, show rest.length + 1 < 2 from hshort]
  case inr.inr =>
    have hop := mt Variant.exists_opcode_eq_iff.mpr (not_exists.mpr hno)
    simp only [e, hop, not_false_eq_true, if_true]

/-- Settles O11: each word is computed. -/
theorem specWordsDecode : Obligations.SpecWordsDecode := by
  refine ⟨?_, ?_, ?_, ?_, ?_, ?_, ?_⟩ <;> decide

/-! ### The upstream operand check (R66, R120, R124) -/

theorem RawInstr.check_toRaw (i : Instr) : i.toRaw.check = .ok i := by
  cases i with
  | load const reg => exact (Laws.OperandRange.load const reg).2
  | read src dst => exact (Laws.OperandRange.read src dst).2
  | write src offset dst => exact (Laws.OperandRange.write src offset dst).2
  | shr src dst => exact (Laws.OperandRange.shr src dst).2

/-- Everything the check can answer: the instruction whose operands are those written, or the error. -/
theorem RawInstr.check_cases (r : RawInstr) :
    (r.wellFormed = true ∧ ∃ i : Instr, i.toRaw = r) ∨
    (r.wellFormed = false ∧ r.check = .error .invalidOperandRange) := by
  cases r with
  | load const reg =>
    by_cases h : const < 16384 ∧ reg < 8
    · exact .inl ⟨by simp [RawInstr.wellFormed, h], .load (BitVec.ofNatLT const h.1) ⟨reg, h.2⟩, rfl⟩
    · exact .inr ⟨by simpa [RawInstr.wellFormed] using h, by simp [RawInstr.check, h]⟩
  | read src dst =>
    by_cases h : src < 8 ∧ dst < 8
    · exact .inl ⟨by simp [RawInstr.wellFormed, h], .read ⟨src, h.1⟩ ⟨dst, h.2⟩, rfl⟩
    · exact .inr ⟨by simpa [RawInstr.wellFormed] using h, by simp [RawInstr.check, h]⟩
  | write src offset dst =>
    by_cases h : src < 8 ∧ offset < 64 ∧ dst < 8
    · exact .inl ⟨by simp [RawInstr.wellFormed, h],
        .write ⟨src, h.1⟩ (BitVec.ofNatLT offset h.2.1) ⟨dst, h.2.2⟩, rfl⟩
    · exact .inr ⟨by simpa [RawInstr.wellFormed, and_assoc] using h, by simp [RawInstr.check, h]⟩
  | shr src dst =>
    by_cases h : src < 8 ∧ dst < 8
    · exact .inl ⟨by simp [RawInstr.wellFormed, h], .shr ⟨src, h.1⟩ ⟨dst, h.2⟩, rfl⟩
    · exact .inr ⟨by simpa [RawInstr.wellFormed] using h, by simp [RawInstr.check, h]⟩

theorem RawInstr.exists_check_eq_ok_iff {r : RawInstr} : (∃ i, r.check = .ok i) ↔ r.wellFormed = true := by
  rcases r.check_cases with ⟨hw, i, rfl⟩ | ⟨hw, he⟩
  · exact iff_of_true ⟨i, RawInstr.check_toRaw i⟩ hw
  · simp [hw, he]

/-- What passes the check has the operands it was written with. -/
theorem RawInstr.check_eq_ok_iff {r : RawInstr} {i : Instr} : r.check = .ok i ↔ i.toRaw = r := by
  refine ⟨fun h => ?_, fun h => h ▸ RawInstr.check_toRaw i⟩
  rcases r.check_cases with ⟨-, j, rfl⟩ | ⟨-, he⟩
  · rw [RawInstr.check_toRaw] at h; cases h; rfl
  · rw [he] at h; cases h

theorem RawInstr.check_eq_error_of_not_wellFormed {r : RawInstr} (h : r.wellFormed = false) :
    r.check = .error .invalidOperandRange := by
  rcases r.check_cases with ⟨hw, -⟩ | ⟨-, he⟩
  · rw [hw] at h; cases h
  · exact he

/-- Settles O12: an instruction passes exactly when it is well formed, which is the ranges of R50, and then with the
operands it was written with. -/
theorem outOfRangeOperandsAreRefused : Obligations.OutOfRangeOperandsAreRefused := by
  refine ⟨fun const reg => ?load, fun src dst => ?read, fun src offset dst => ?write, fun src dst => ?shr,
    fun r i h => ?passed, fun r h => ?refused⟩
  case load => simp [RawInstr.exists_check_eq_ok_iff, RawInstr.wellFormed, Nat.lt_succ_iff]
  case read => simp [RawInstr.exists_check_eq_ok_iff, RawInstr.wellFormed, Nat.lt_succ_iff]
  case write => simp [RawInstr.exists_check_eq_ok_iff, RawInstr.wellFormed, Nat.lt_succ_iff, and_assoc]
  case shr => simp [RawInstr.exists_check_eq_ok_iff, RawInstr.wellFormed, Nat.lt_succ_iff]
  case passed => exact ⟨RawInstr.check_eq_ok_iff.mp h, by rw [encodeRaw, h]⟩
  case refused => rw [encodeRaw, RawInstr.check_eq_error_of_not_wellFormed h]

end Sys2Proof
end

section
/-! What each instruction leaves in every register and cell (10_state.md, 42_memory_access.md, 43_shift.md): O15, O17,
O19, O20, O22, O23, O24, O25 and O27. -/

namespace Sys2Proof.Machine

/-! ### One rule per instruction, in numbers (R90, R95, R96, R105) -/

/-- What register `r` holds after an instruction executed in `s`. -/
def regAfter (s : State) (r : Reg) : Instr → Nat
  | .load const reg => if r = reg then const.toNat else s.regVal r
  | .read src dst => if r = dst ∧ s.regVal src < 65536 then s.cellVal (s.regVal src) else s.regVal r
  | .write _ _ _ => s.regVal r
  | .shr src dst =>
    if r = dst then (if s.regVal src < s.cfg.N then s.regVal dst / 2 ^ s.regVal src else 0) else s.regVal r

/-- What cell `a` holds after an instruction executed in `s`. -/
def cellAfter (s : State) (a : Nat) : Instr → Nat
  | .load _ _ => s.cellVal a
  | .read _ _ => s.cellVal a
  | .write src offset dst => if a = s.regVal dst + offset.toNat ∧ a < 65536 then s.regVal src else s.cellVal a
  | .shr _ _ => s.cellVal a

theorem exec_next_regVal {i : Instr} {s t : State} (h : exec i s = .next t) (r : Reg) :
    t.regVal r = regAfter s r i := by
  cases i with
  | load const reg =>
    rw [exec_load] at h; cases h
    rw [State.retire_regVal, State.setReg_regVal, immediate_toNat, regAfter]
  | read src dst =>
    by_cases ha : s.regVal src < 65536
    · rw [exec_read_of_lt dst ha] at h; cases h
      simp [regAfter, ha, readAddress]
    · rw [exec_read_of_not_lt dst ha] at h; cases h
      simp [regAfter, ha]
  | write src offset dst =>
    by_cases ha : writeAddress s offset dst < 65536
    · rw [exec_write_of_lt src ha] at h; cases h; rfl
    · rw [exec_write_of_not_lt src ha] at h; cases h; rfl
  | shr src dst =>
    rw [exec_shr] at h; cases h
    rw [State.retire_regVal, State.setReg_regVal, shrN_toNat, reg_toNat, shiftAmount, regAfter]

theorem exec_next_cellVal {i : Instr} {s t : State} (h : exec i s = .next t) (a : Nat) :
    t.cellVal a = cellAfter s a i := by
  cases i with
  | load const reg => rw [exec_load] at h; cases h; rfl
  | read src dst =>
    by_cases ha : readAddress s src < 65536
    · rw [exec_read_of_lt dst ha] at h; cases h; rfl
    · rw [exec_read_of_not_lt dst ha] at h; cases h; rfl
  | write src offset dst =>
    by_cases ha : s.regVal dst + offset.toNat < 65536
    · rw [exec_write_of_lt src ha] at h; cases h
      rw [State.retire_cellVal, State.memWrite_cellVal, reg_toNat, writeAddress, cellAfter]
      exact if_congr ⟨fun e => ⟨e, e ▸ ha⟩, And.left⟩ rfl rfl
    · rw [exec_write_of_not_lt src ha] at h; cases h
      rw [State.retire_cellVal, cellAfter, if_neg fun ⟨e, hlt⟩ => ha (e ▸ hlt)]
  | shr src dst => rw [exec_shr] at h; cases h; rfl

/-- No instruction writes the width. -/
theorem exec_next_cfg {i : Instr} {s t : State} (h : exec i s = .next t) : t.cfg = s.cfg := by
  rcases exec_next_cases h with ⟨r, v, rfl⟩ | ⟨a, v, -, rfl⟩ | rfl <;> rfl

/-- Every executed instruction counts once. -/
theorem exec_next_icount {i : Instr} {s t : State} (h : exec i s = .next t) : t.icount = s.icount + 1 := by
  rcases exec_next_cases h with ⟨r, v, rfl⟩ | ⟨a, v, -, rfl⟩ | rfl <;> rfl

/-! ### `Write`, and accesses out of range (R96, R97) -/

/-- Settles O15: the rule for cells says what is stored, and nothing else but the two counters changes. -/
theorem writeStoresRegister : Obligations.WriteStoresRegister := fun s src offset dst =>
  have ⟨t, h⟩ := exec_exists_next (.write src offset dst) s
  ⟨t, h, exec_next_cellVal h, exec_next_regVal h, exec_next_cfg h, exec_next_code h, exec_next_halt h,
    by rw [exec_next_pc h, Instr.write_length], exec_next_icount h⟩

/-- Settles O17: out of range, both instructions only retire. -/
theorem outOfRangeAccessIsNoOp : Obligations.OutOfRangeAccessIsNoOp :=
  ⟨fun _ _ dst h => exec_read_of_not_lt dst (Nat.not_lt.mpr h),
    fun _ src _ _ h => exec_write_of_not_lt src (Nat.not_lt.mpr h)⟩

/-- Settles O19, by the rules with one register in both roles; a value is below 2 to its own power, so `Shr` clears. -/
theorem sameRegisterForms : Obligations.SameRegisterForms := by
  refine fun s r offset => ⟨fun ha => ?read, fun ha => ?write, ?shr⟩
  case read =>
    obtain ⟨t, h⟩ := exec_exists_next (.read r r) s
    exact ⟨t, h, by rw [exec_next_regVal h, regAfter, if_pos ⟨rfl, ha⟩]⟩
  case write =>
    obtain ⟨t, h⟩ := exec_exists_next (.write r offset r) s
    exact ⟨t, h, by rw [exec_next_cellVal h, cellAfter, if_pos ⟨rfl, ha⟩]⟩
  case shr =>
    obtain ⟨t, h⟩ := exec_exists_next (.shr r r) s
    exact ⟨t, h, by rw [exec_next_regVal h, regAfter, if_pos rfl, Nat.div_eq_of_lt Nat.lt_two_pow_self, ite_self]⟩

/-- A register of a word of at most `n` bits holds less than `2 ^ n`. -/
theorem State.regVal_lt_of_width_le {s : State} {n : Nat} (h : s.cfg.N ≤ n) (r : Reg) : s.regVal r < 2 ^ n :=
  (s.regVal_lt r).trans_le (Nat.pow_le_pow_right (by decide) h)

/-- Settles O20: a 16-bit value is below 65536, and a 15-bit value with an offset below 64 too. -/
theorem narrowWordsAreAlwaysInRange : Obligations.NarrowWordsAreAlwaysInRange := by
  refine fun s r offset => ⟨fun hN => ?_, fun hN => ?_⟩
  · exact (inRange_iff _).mpr (State.regVal_lt_of_width_le hN r)
  · have hreg : s.regVal r < 2 ^ 15 := State.regVal_lt_of_width_le (Nat.le_of_lt_succ hN) r
    have hoff := offset.isLt
    rw [inRange_iff, writeAddress]
    omega

/-! ### Frames -/

/-- Settles O22: the parameters and the halt record by their own lemmas, registers and cells by the instruction's
rules. -/
theorem instructionFrame : Obligations.InstructionFrame := by
  refine fun i s t h => ⟨exec_next_cfg h, exec_next_code h, exec_next_halt h, ?_⟩
  have hreg := exec_next_regVal h
  have hcell := exec_next_cellVal h
  cases i with
  | load const reg => exact ⟨fun q hq => by rw [hreg, regAfter, if_neg hq], hcell⟩
  | read src dst => exact ⟨fun q hq => by rw [hreg, regAfter, if_neg fun ⟨e, _⟩ => hq e], hcell⟩
  | write src offset dst => exact ⟨hreg, fun a ha => by rw [hcell, cellAfter, if_neg fun ⟨e, _⟩ => ha e]⟩
  | shr src dst => exact ⟨fun q hq => by rw [hreg, regAfter, if_neg hq], hcell⟩

/-! ### What an instruction does not read -/

/-- The same machine with another code stream, program counter, instruction counter and halt record. -/
def State.withControl (s : State) (code : List Byte) (pc icount : Nat) (halt : Option HaltRecord) : State :=
  { s with code := code, pc := pc, icount := icount, halt := halt }

/-- No instruction reads what `withControl` replaces: the address tests and the values stay the same. -/
theorem exec_withControl {i : Instr} {s t : State} (code : List Byte) (pc icount : Nat) (halt : Option HaltRecord)
    (h : exec i s = .next t) :
    exec i (s.withControl code pc icount halt) = .next (t.withControl code (pc + i.length) (icount + 1) halt) := by
  cases i with
  | load const reg => rw [exec_load] at h; cases h; rfl
  | read src dst =>
    rw [Instr.read_length]
    by_cases ha : readAddress s src < 65536
    · rw [exec_read_of_lt dst ha] at h; cases h
      exact exec_read_of_lt (s := s.withControl code pc icount halt) dst ha
    · rw [exec_read_of_not_lt dst ha] at h; cases h
      exact exec_read_of_not_lt (s := s.withControl code pc icount halt) dst ha
  | write src offset dst =>
    rw [Instr.write_length]
    by_cases ha : writeAddress s offset dst < 65536
    · rw [exec_write_of_lt src ha] at h; cases h
      exact exec_write_of_lt (s := s.withControl code pc icount halt) src ha
    · rw [exec_write_of_not_lt src ha] at h; cases h
      exact exec_write_of_not_lt (s := s.withControl code pc icount halt) src ha
  | shr src dst => rw [exec_shr] at h; cases h; rfl

/-- Settles O23: each meaning commutes with replacing what is no data. -/
theorem instructionsReadOnlyData : Obligations.InstructionsReadOnlyData := fun _ _ _ code pc icount halt =>
  exec_withControl code pc icount halt

theorem State.setReg_regVal_of_ne (s : State) {q r : Reg} (w : Word s.cfg.N) (h : r ≠ q) :
    (s.setReg q w).regVal r = s.regVal r := by
  rw [State.setReg_regVal, if_neg h]

/-- Changing a register an instruction does not read leaves those it reads. -/
theorem State.setReg_regVal_of_read (s : State) {i : Instr} {q : Reg} (w : Word s.cfg.N) (hq : q ∉ registersRead i)
    (p : Reg) (hp : p ∈ registersRead i := by simp [registersRead]) : (s.setReg q w).regVal p = s.regVal p :=
  s.setReg_regVal_of_ne w fun e => hq (e ▸ hp)

/-- What an instruction leaves in a register other than `q` does not depend on `q`, unless it reads it. -/
theorem regAfter_setReg {i : Instr} {q r : Reg} (s : State) (w : Word s.cfg.N) (hq : q ∉ registersRead i)
    (hr : r ≠ q) : regAfter (s.setReg q w) r i = regAfter s r i := by
  have hother := s.setReg_regVal_of_ne w hr
  cases i with
  | load const reg => rw [regAfter, regAfter, hother]
  | read src dst => rw [regAfter, regAfter, hother, s.setReg_regVal_of_read w hq src, State.setReg_cellVal]
  | write src offset dst => exact hother
  | shr src dst =>
    rw [regAfter, regAfter, hother, s.setReg_regVal_of_read w hq src, s.setReg_regVal_of_read w hq dst,
      State.setReg_cfg]

/-- What an instruction leaves in a cell does not depend on a register it does not read. -/
theorem cellAfter_setReg {i : Instr} {q : Reg} (s : State) (w : Word s.cfg.N) (hq : q ∉ registersRead i) (a : Nat) :
    cellAfter (s.setReg q w) a i = cellAfter s a i := by
  cases i with
  | load const reg => rfl
  | read src dst => rfl
  | write src offset dst =>
    rw [cellAfter, cellAfter, s.setReg_regVal_of_read w hq src, s.setReg_regVal_of_read w hq dst,
      State.setReg_cellVal]
  | shr src dst => rfl

/-- Settles O24: registers and cells by the instruction's rules, the counters and the halt record by their own
lemmas. -/
theorem unreadRegistersHaveNoEffect : Obligations.UnreadRegistersHaveNoEffect := by
  refine fun i s t u q w hq ht hu => ⟨fun r hr => ?_, fun a => ?_, ?_, ?_, ?_⟩
  · rw [exec_next_regVal hu, exec_next_regVal ht, regAfter_setReg s w hq hr]
  · rw [exec_next_cellVal hu, exec_next_cellVal ht, cellAfter_setReg s w hq]
  · rw [exec_next_pc hu, exec_next_pc ht, State.setReg_pc]
  · rw [exec_next_icount hu, exec_next_icount ht, State.setReg_icount]
  · rw [exec_next_halt hu, exec_next_halt ht, State.setReg_halt]

/-! ### Over whole steps, and after one another -/

/-- A register an instruction changes is the one it writes. -/
theorem written_of_regAfter_ne {i : Instr} {s : State} {q : Reg} (h : regAfter s q i ≠ s.regVal q) :
    written s i = some q := by
  cases i with
  | load const reg =>
    obtain rfl : q = reg := of_not_not fun hq => h (if_neg hq)
    rfl
  | read src dst =>
    obtain ⟨rfl, ha⟩ : q = dst ∧ s.regVal src < 65536 := of_not_not fun hq => h (if_neg hq)
    exact if_pos ha
  | write src offset dst => exact absurd rfl h
  | shr src dst =>
    obtain rfl : q = dst := of_not_not fun hq => h (if_neg hq)
    rfl

/-- A cell an instruction changes is the one a `Write` addresses. -/
theorem exists_write_of_cellAfter_ne {i : Instr} {s : State} {a : Nat} (h : cellAfter s a i ≠ s.cellVal a) :
    ∃ src offset dst, i = .write src offset dst ∧ a = s.regVal dst + offset.toNat ∧ a < 65536 := by
  cases i with
  | load const reg => exact absurd rfl h
  | read src dst => exact absurd rfl h
  | write src offset dst => exact ⟨src, offset, dst, rfl, of_not_not fun ha => h (if_neg ha)⟩
  | shr src dst => exact absurd rfl h

/-- Settles O25: the step is a decoded instruction, whose rules say what it changes, or the halt entry, which changes
neither registers nor cells. -/
theorem onlyDestinationsChange : Obligations.OnlyDestinationsChange := by
  intro s t h
  obtain ⟨-, b0, rest, hf, ⟨i, l, hd, he⟩ | ⟨e, -, rfl⟩⟩ := step_next_cases h
  case inl =>
    refine ⟨fun q hq => ?_, fun a ha => ?_⟩
    · rw [exec_next_regVal he] at hq
      exact ⟨b0, rest, i, l, hf, hd, written_of_regAfter_ne hq⟩
    · rw [exec_next_cellVal he] at ha
      obtain ⟨src, offset, dst, rfl, haddr⟩ := exists_write_of_cellAfter_ne ha
      exact ⟨b0, rest, src, offset, dst, l, hf, hd, haddr⟩
  case inr =>
    exact ⟨fun q hq => absurd (State.takeHalt_regVal s e q) hq, fun a ha => absurd (State.takeHalt_cellVal s e a) ha⟩

/-- Settles O27: the `Write` changes no register, so the `Read` addresses by the old `x[p]`, and finds there what the
`Write`'s rule for cells says. -/
theorem readAfterWrite : Obligations.ReadAfterWrite := by
  intro s t src offset dst p q hw hp h
  obtain ⟨u, hu⟩ := exec_exists_next (.read p q) t
  refine ⟨u, hu, ?_⟩
  have hreg : t.regVal p = s.regVal p := exec_next_regVal h p
  rw [exec_next_regVal hu, regAfter, hreg, if_pos ⟨rfl, hp⟩, exec_next_cellVal h, cellAfter]
  exact if_congr (and_iff_left hp) rfl rfl

end Sys2Proof.Machine
end

section
/-! What every step keeps, and reset (10_state.md, 60_exceptions.md section 8, 70_reset_and_hazards.md): O39, O40, O28,
O33, O35, O37, O38 and O41. -/

namespace Sys2Proof.Machine

/-! ### The canonical form, the program counter and the halt offset -/

/-- An instruction replaces no cell or an existing one. -/
theorem exec_next_wf {i : Instr} {s t : State} (h : exec i s = .next t) (hwf : s.mem.wf) : t.mem.wf := by
  rcases exec_next_cases h with ⟨r, v, rfl⟩ | ⟨a, v, ha, rfl⟩ | rfl
  · exact hwf
  · exact Memory.wf_write hwf v ha
  · exact hwf

/-- A decoded record lies in the code stream. -/
theorem pc_add_length_le_of_decode {s : State} {b0 : Byte} {rest : List Byte} {i : Instr} {l : Nat}
    (hf : s.fetch = b0 :: rest) (hd : decode b0 rest = .ok (i, l)) : s.pc + i.length ≤ s.code.length := by
  obtain ⟨rfl, hl⟩ := decode_ok_length hd
  obtain ⟨-, hlen⟩ := State.lt_of_fetch hf
  omega

/-- Settles O39: an executed instruction keeps the canonical form and moves the program counter over its record, which
lies in the stream; the halt entry records the offset of the record it stands at. -/
theorem stepKeepsInvariant : Obligations.StepKeepsInvariant := by
  intro s t ⟨hwf, hpc, _⟩ h
  obtain ⟨hh, b0, rest, hf, ⟨i, l, hd, he⟩ | ⟨e, -, rfl⟩⟩ := step_next_cases h
  case inl =>
    refine ⟨exec_next_wf he hwf, ?_, fun r hr => ?_⟩
    · rw [exec_next_pc he, exec_next_code he]
      exact pc_add_length_le_of_decode hf hd
    · rw [exec_next_halt he, hh] at hr
      cases hr
  case inr =>
    refine ⟨hwf, hpc, fun r hr => ?_⟩
    cases hr
    exact ⟨rfl, (State.lt_of_fetch hf).1⟩

/-! ### The value bound (R146) -/

theorem regAfter_le_of_bounded {s : State} (hb : s.Bounded) (r : Reg) (i : Instr) : regAfter s r i ≤ 16383 := by
  obtain ⟨hreg, hcell⟩ := hb
  cases i with
  | load const reg =>
    rw [regAfter]
    split
    · exact Nat.le_of_lt_succ const.isLt
    · exact hreg r
  | read src dst =>
    rw [regAfter]
    split
    · exact hcell _
    · exact hreg r
  | write src offset dst => exact hreg r
  | shr src dst =>
    rw [regAfter]
    split
    · split
      · exact (Nat.div_le_self _ _).trans (hreg dst)
      · exact Nat.zero_le _
    · exact hreg r

theorem cellAfter_le_of_bounded {s : State} (hb : s.Bounded) (a : Nat) (i : Instr) : cellAfter s a i ≤ 16383 := by
  obtain ⟨hreg, hcell⟩ := hb
  cases i with
  | load const reg => exact hcell a
  | read src dst => exact hcell a
  | write src offset dst =>
    rw [cellAfter]
    split
    · exact hreg src
    · exact hcell a
  | shr src dst => exact hcell a

theorem step_next_bounded {s t : State} (hb : s.Bounded) (h : step s = .next t) : t.Bounded := by
  obtain ⟨-, b0, rest, -, ⟨i, l, -, he⟩ | ⟨e, -, rfl⟩⟩ := step_next_cases h
  · exact ⟨fun r => exec_next_regVal he r ▸ regAfter_le_of_bounded hb r i,
      fun a => exec_next_cellVal he a ▸ cellAfter_le_of_bounded hb a i⟩
  · exact hb

/-- Settles O40: every value an instruction leaves is a 14-bit constant, a value from before or a shifted one, and an
offset adds at most 63. -/
theorem stepKeepsValueBound : Obligations.StepKeepsValueBound := by
  refine fun s hb => ⟨fun t => step_next_bounded hb, fun r offset => ?_⟩
  have hreg : s.regVal r ≤ 16383 := hb.1 r
  refine ⟨hreg, ?_⟩
  have hoff := offset.isLt
  rw [writeAddress]
  omega

/-! ### The step's outcome by name, and the instruction counter (R13, R73, R131) -/

/-- Settles O28, by the step at a record that decodes and the length the decoder consumes. -/
theorem stepRunsDecodedInstruction : Obligations.StepRunsDecodedInstruction := fun _ _ _ _ _ hh hf hd =>
  ⟨step_of_decode_ok hh hf hd, (decode_ok_length hd).1⟩

/-- A machine that is not halted steps on inside its code stream and stops as completed at the end, so no step is
refused. -/
theorem step_ne_refused (s : State) (r : Refusal) : step s ≠ .refused r := by
  cases hh : s.halt with
  | some h => rw [step_of_halt hh]; exact nofun
  | none =>
    rcases Nat.lt_or_ge s.pc s.code.length with hlt | hge
    · obtain ⟨t, ht⟩ := exists_step_next hh hlt
      rw [ht]; exact nofun
    · rw [step_of_end hh hge]; exact nofun

/-- Settles O33, one rule per terminal state. -/
theorem terminalStatesStopByName : Obligations.TerminalStatesStopByName := fun s =>
  ⟨fun _ => step_of_halt, step_of_end, step_ne_refused s⟩

/-- Settles O35: an executed instruction counts and leaves the machine not halted, the halt entry does neither. -/
theorem instructionCounterCounts : Obligations.InstructionCounterCounts := by
  intro s t h
  obtain ⟨hh, b0, rest, -, ⟨i, l, -, he⟩ | ⟨e, -, rfl⟩⟩ := step_next_cases h
  · exact ⟨fun _ => exec_next_icount he, fun hne => absurd ((exec_next_halt he).trans hh) hne⟩
  · exact ⟨nofun, fun _ => State.takeHalt_icount s e⟩

/-! ### Reset (R21, R140) -/

theorem State.construct_status (cfg : Config) (code : List Byte) :
    (State.construct cfg code).status = if code = [] then .completed else .running := by
  split
  · next h => exact State.status_of_completed rfl (by simp [h])
  · next h => exact State.status_of_running rfl (List.length_pos_iff.mpr h)

/-- Settles O37, one field after another. -/
theorem resetZeroesEverything : Obligations.ResetZeroesEverything := fun cfg code =>
  ⟨State.construct_regVal cfg code, State.construct_cellVal cfg code, rfl, rfl, rfl, rfl, rfl,
    State.construct_status cfg code⟩

/-- The empty memory is canonical, the stream's start is inside it and nothing is halted. -/
theorem State.construct_inv (cfg : Config) (code : List Byte) : (State.construct cfg code).Inv :=
  ⟨⟨List.Pairwise.nil, fun _ hc => nomatch hc⟩, Nat.zero_le _, fun _ hr => nomatch hr⟩

theorem State.construct_bounded (cfg : Config) (code : List Byte) : (State.construct cfg code).Bounded :=
  ⟨fun r => by rw [State.construct_regVal]; exact Nat.zero_le _,
    fun a => by rw [State.construct_cellVal]; exact Nat.zero_le _⟩

/-- Settles O38; the model's `State.reset` is the construction at the default width with the empty stream. -/
theorem resetMeetsInvariant : Obligations.ResetMeetsInvariant :=
  ⟨fun cfg code => ⟨State.construct_inv cfg code, State.construct_bounded cfg code⟩, State.construct_inv _ _⟩

/-! ### Reachable states -/

theorem step_next_cfg {s t : State} (h : step s = .next t) : t.cfg = s.cfg := by
  obtain ⟨-, b0, rest, -, ⟨i, l, -, he⟩ | ⟨e, -, rfl⟩⟩ := step_next_cases h
  · exact exec_next_cfg he
  · exact State.takeHalt_cfg s e

/-- What holds at reset and every step keeps holds of every reachable state. -/
theorem Reachable.invariant {cfg : Config} {code : List Byte} {P : State → Prop}
    (hreset : P (State.construct cfg code)) (hstep : ∀ s t, P s → Machine.step s = .next t → P t) {s : State}
    (h : Reachable cfg code s) : P s := by
  induction h with
  | reset => exact hreset
  | step _ h ih => exact hstep _ _ ih h

theorem Reachable.cfg_eq {cfg : Config} {code : List Byte} {s : State} (h : Reachable cfg code s) : s.cfg = cfg :=
  h.invariant (P := fun s => s.cfg = cfg) rfl fun _ _ hs hst => (step_next_cfg hst).trans hs

theorem Reachable.code_eq {cfg : Config} {code : List Byte} {s : State} (h : Reachable cfg code s) : s.code = code :=
  h.invariant (P := fun s => s.code = code) rfl fun _ _ hs hst => (step_next_code hst).trans hs

/-- Settles O41: each property holds at reset and is kept by every step; `Completed` puts the program counter at the end
of the stream or past it, and the invariant not past it. -/
theorem reachableStatesAreGood : Obligations.ReachableStatesAreGood := by
  intro cfg code s h
  have hinv : s.Inv := h.invariant (State.construct_inv cfg code) stepKeepsInvariant
  have hbound : s.Bounded := h.invariant (State.construct_bounded cfg code) fun _ _ => step_next_bounded
  refine ⟨hinv, hbound, h.cfg_eq, h.code_eq, fun hc => ?_⟩
  obtain ⟨-, hpc, -⟩ := hinv
  rw [← h.code_eq]
  exact Nat.le_antisymm hpc (State.status_eq_completed.mp hc).2

end Sys2Proof.Machine
end

section
/-! Runs to the end and record by record (40_fetch_decode_execute.md sections 3 and 4): O42, O43 and O44. -/

namespace Sys2Proof.Machine

/-! ### The bound on a run's steps (R74) -/

/-- The most instructions that the remaining bytes hold: a record has at least two. -/
def State.recordsLeft (s : State) : Nat := (s.code.length - s.pc) / 2

theorem Instr.two_le_length (i : Instr) : 2 ≤ i.length := by cases i <;> simp

/-- A step either executes a record, of which one fewer is then left, or halts. -/
theorem step_next_progress {s t : State} (h : step s = .next t) :
    (t.recordsLeft < s.recordsLeft ∧ t.icount = s.icount + 1) ∨ (t.status ≠ .running ∧ t.icount = s.icount) := by
  obtain ⟨-, b0, rest, hf, ⟨i, l, hd, he⟩ | ⟨e, -, rfl⟩⟩ := step_next_cases h
  case inl =>
    refine .inl ⟨?_, exec_next_icount he⟩
    have hlen := pc_add_length_le_of_decode hf hd
    have htwo := Instr.two_le_length i
    rw [State.recordsLeft, State.recordsLeft, exec_next_pc he, exec_next_code he]
    omega
  case inr =>
    refine .inr ⟨?_, rfl⟩
    rw [State.status_of_halt (State.takeHalt_halt s e)]
    exact nofun

/-- A machine that is not running stays as it is, however many steps are asked for. -/
theorem runFor_of_not_running {s : State} (h : s.status ≠ .running) (k : Nat) : runFor k s = s :=
  runFor_of_no_next (not_exists.mp (mt exists_step_next_iff.mp h)) k

/-- More steps than there are records left end the run, with at most that many instructions executed. -/
theorem runFor_terminates {k : Nat} {s : State} (hk : s.recordsLeft < k) :
    (runFor k s).status ≠ .running ∧ (runFor k s).icount ≤ s.icount + s.recordsLeft := by
  induction k generalizing s with
  | zero => exact absurd hk (Nat.not_lt_zero _)
  | succ k ih =>
    by_cases hrun : s.status = .running
    · obtain ⟨t, ht⟩ := exists_step_next_iff.mpr hrun
      rw [runFor_succ_of_next ht]
      rcases step_next_progress ht with ⟨hless, hcount⟩ | ⟨hend, hcount⟩
      · obtain ⟨hstatus, hle⟩ := ih (s := t) (by omega)
        exact ⟨hstatus, by omega⟩
      · rw [runFor_of_not_running hend]
        exact ⟨hend, by omega⟩
    · rw [runFor_of_not_running hrun]
      exact ⟨hrun, Nat.le_add_right _ _⟩

/-- Settles O42: `run` takes one step more than there are records left. -/
theorem everyRunTerminates : Obligations.EveryRunTerminates := fun s =>
  runFor_terminates (Nat.lt_succ_self s.recordsLeft)

/-- Steps beyond the end of a run change nothing. -/
theorem runFor_eq_run {k : Nat} {s : State} (hk : s.recordsLeft < k) : runFor k s = run s := by
  obtain ⟨m, rfl⟩ := Nat.exists_eq_add_of_le (Nat.succ_le_of_lt hk)
  rw [runFor_add]
  exact runFor_of_not_running (everyRunTerminates s).1 m

/-- Settles O43: with enough steps for both runs, going on after `j` steps is the uninterrupted run of `j` steps
more. -/
theorem stoppingAndResumingChangesNothing : Obligations.StoppingAndResumingChangesNothing := by
  intro j s
  let k := (runFor j s).recordsLeft + s.recordsLeft + 1
  calc run (runFor j s)
    _ = runFor k (runFor j s) := (runFor_eq_run (by omega)).symm
    _ = runFor (j + k) s := (runFor_add j k s).symm
    _ = run s := runFor_eq_run (by omega)

/-! ### Record by record (R61, R76) -/

theorem encodeProgram_cons (i : Instr) (is : List Instr) : encodeProgram (i :: is) = encode i ++ encodeProgram is := rfl

theorem execAll_cons_of_next {i : Instr} {is : List Instr} {s t : State} (h : exec i s = .next t) :
    execAll (i :: is) s = execAll is t := by
  rw [execAll, h]

/-- A machine that stands at an instruction's record executes it and then stands at what follows the record. -/
theorem step_of_encoded {i : Instr} {after : List Byte} {s : State} (hh : s.halt = none)
    (hf : s.fetch = encode i ++ after) : ∃ t, exec i s = .next t ∧ step s = .next t ∧ t.fetch = after := by
  obtain ⟨t, ht⟩ := exec_exists_next i s
  obtain ⟨b0, tail, he⟩ := encode_eq_cons i
  refine ⟨t, ht, ?_, ?_⟩
  · rw [he, List.cons_append] at hf
    rw [step_of_decode_ok hh hf (decode_encode_append he after), ht]
  · rw [State.fetch, exec_next_pc ht, exec_next_code ht, ← List.drop_drop]
    rw [State.fetch] at hf
    rw [hf, ← encode_length, List.drop_left]

/-- Settles O44, by induction on the instructions. -/
theorem recordsExecuteOnceInOrder : Obligations.RecordsExecuteOnceInOrder := by
  intro is rest
  induction is with
  | nil => exact fun s hh _ => ⟨rfl, hh, rfl, rfl⟩
  | cons i is ih =>
    intro s hh hf
    rw [encodeProgram_cons, List.append_assoc] at hf
    obtain ⟨t, ht, hstep, hf'⟩ := step_of_encoded hh hf
    obtain ⟨hrun, hhalt, hcount, hpc⟩ := ih t ((exec_next_halt ht).trans hh) hf'
    rw [execAll_cons_of_next ht, List.length_cons, runFor_succ_of_next hstep]
    refine ⟨hrun, hhalt, ?_, ?_⟩
    · rw [hcount, exec_next_icount ht]; omega
    · rw [hpc, exec_next_pc ht, encodeProgram_cons, List.length_append, encode_length]; omega

end Sys2Proof.Machine
end
